-- ==== Sys2Proof/Word.lean ====
section
/-! DEFINITION. The word types of the core: bytes, register addresses, the words of the three formats,
and the fixed-length byte sequences of 00_scope.md R9 and R10. -/

namespace Sys2Proof

/-- A byte, bit 7 the most significant (R9). -/
abbrev Byte := BitVec 8

/-- A register address, exactly 6 bits (R50, R51, R53). -/
abbrev Addr := BitVec 6

/-- A format-B word: `we`, `addr`, `wdata` (R81). -/
abbrev BusWord := BitVec 15

/-- A format-M word: `op`, `r` (R83). -/
abbrev MicroWord := BitVec 8

/-- A Block, CipherKey or round key: 16 bytes, index 0 first (R10). -/
abbrev Block := Vector Byte 16

/-- A Word of the key schedule, or a column of the state matrix: 4 bytes, index 0 first (R10, R7). -/
abbrev Word4 := Vector Byte 4

/-- Sixteen bytes 0x00, the reset value of every block register (R230). -/
def zeroBlock : Block := Vector.replicate 16 0x00

end Sys2Proof
end

