-- ==== Sys2Proof/Config.lean ====
section
/-! DEFINITION. The parameters of the core. 00_scope.md R7 and R8 fix every one of them and R8 says that no
parameter is left open, so Config holds numbers only: no free value and no argument of the model. -/

namespace Sys2Proof.Config

/-- Number of rounds of AES-128 (R7). -/
def numRounds : Nat := 10

/-- Number of round keys, round 0 to round 10 (R7). -/
def numRoundKeys : Nat := 11

/-- Number of Words of the key schedule (R7). -/
def numWords : Nat := 44

/-- Number of micro-operations of each micro-program (R8). -/
def microLength : Nat := 51

end Sys2Proof.Config
end

