-- ==== Sys2Proof/Syntax.lean ====
section
/-! DEFINITION. The instructions: the two host accesses, the two host commands and the nine micro-operations
(00_scope.md R3, 30_encoding.md R85), one constructor per row of spec/opcode_table.json. -/

namespace Sys2Proof

/-- The instructions. Operands are the fields of R81 and R83 as they stand in the word; which values of
`r` are legal is WellFormed's matter. -/
inductive Instr where
  | rd (a : Addr)               -- RD a      host read              R55
  | wr (a : Addr) (v : Byte)    -- WR a, v   host write             R56
  | enc                         -- ENC       encrypt command        R177
  | dec                         -- DEC       decrypt command        R178
  | kxr (r : BitVec 4)          -- KXR r     key expansion round    R157
  | ark (r : BitVec 4)          -- ARK r     add round key          R166
  | sub                         -- SUB       substitute bytes       R103
  | isub                        -- ISUB      inverse substitution   R104
  | shr                         -- SHR       shift rows             R132
  | ishr                        -- ISHR      inverse shift rows     R133
  | mix                         -- MIX       mix columns            R142
  | imix                        -- IMIX      inverse mix columns    R143
  | sto                         -- STO       store and finish       R186
  deriving DecidableEq, Repr

/-- An encoded instruction: a format-B bus access or a format-M micro-operation word (R80). A format-C
command byte is the `wdata` of a format-B word (R82), so it is not a third kind of word. -/
inductive Encoded where
  | bus (w : BusWord)
  | micro (w : MicroWord)
  deriving DecidableEq, Repr

/-- Why the decoder rejects a word (R86). -/
inductive Reject where
  /-- Format C: a command byte other than 0x01 and 0x02. -/
  | reservedCommand
  /-- Format M: `op` 0x0 or 0xA to 0xF. -/
  | reservedOp
  /-- Format M: `KXR` with `r` 0 or 11 to 15, or `ARK` with `r` 11 to 15. -/
  | illegalRound
  /-- Format M: `op` 0x3 to 0x9 with `r` other than 0. -/
  | roundNotZero
  deriving DecidableEq, Repr

end Sys2Proof
end

