-- ==== Sys2Proof/WellFormed.lean ====
section
/-! DEFINITION. Which instruction terms have a word of their own (30_encoding.md R84, R85, R90). -/

namespace Sys2Proof

/-- `KXR` takes `r` in 1..10 (R84, R157). -/
def Instr.legalKxr (r : BitVec 4) : Bool := 1 ≤ r.toNat && r.toNat ≤ 10

/-- `ARK` takes `r` in 0..10 (R84, R166). -/
def Instr.legalArk (r : BitVec 4) : Bool := r.toNat ≤ 10

/-- A `WR` of a command byte to `CTRL` is the word of `ENC` or `DEC`, which a decoder tests first
(R82, R90), so as a term it is not the instruction its word stands for. -/
def Instr.isCommand (a : Addr) (v : Byte) : Bool := a == 0x30#6 && (v == 0x01#8 || v == 0x02#8)

/-- The instruction is the one its own word decodes to. -/
def Instr.wf : Instr → Bool
  | .rd _ => true
  | .wr a v => !Instr.isCommand a v
  | .enc => true
  | .dec => true
  | .kxr r => Instr.legalKxr r
  | .ark r => Instr.legalArk r
  | .sub => true
  | .isub => true
  | .shr => true
  | .ishr => true
  | .mix => true
  | .imix => true
  | .sto => true

end Sys2Proof
end

