-- ==== Sys2Proof/Decode.lean ====
section
/-! DEFINITION. The decoders of the three formats, total and rejecting by name, and the encoder
(30_encoding.md R80 to R90). Words are numbers, not byte sequences: no byte order applies to them (R84). -/

namespace Sys2Proof

/-- The `we` field of a format-B word, bit 14 (R81). -/
def busWe (w : BusWord) : Bool := w.getLsbD 14

/-- The `addr` field of a format-B word, bits 13:8 (R81). -/
def busAddr (w : BusWord) : Addr := w.extractLsb' 8 6

/-- The `wdata` field of a format-B word, bits 7:0 (R81). -/
def busData (w : BusWord) : Byte := w.extractLsb' 0 8

/-- The `op` field of a format-M word, bits 7:4 (R83). -/
def microOp (w : MicroWord) : BitVec 4 := w.extractLsb' 4 4

/-- The `r` field of a format-M word, bits 3:0 (R83). -/
def microRound (w : MicroWord) : BitVec 4 := w.extractLsb' 0 4

/-- Format B (R81, R90): `ENC` and `DEC` are the more specific patterns and are tested first. Every word
is a legal access. `wdata` of a read is ignored. -/
def decodeB (w : BusWord) : Instr :=
  if w = 0x7001#15 then .enc
  else if w = 0x7002#15 then .dec
  else if busWe w then .wr (busAddr w) (busData w)
  else .rd (busAddr w)

/-- Format C, the command byte written to `CTRL` (R82): all 8 bits are compared. -/
def decodeC (v : Byte) : Except Reject Instr :=
  if v = 0x01#8 then .ok .enc
  else if v = 0x02#8 then .ok .dec
  else .error .reservedCommand

/-- A format-M operation without operand: its `r` field must be 0 (R83). -/
def noRound (r : BitVec 4) (i : Instr) : Except Reject Instr :=
  if r = 0#4 then .ok i else .error .roundNotZero

/-- Format M (R85, R86): decoded by `op`, then by the legality of `r`. -/
def decodeM (w : MicroWord) : Except Reject Instr :=
  if microOp w = 0x1#4 then
    if Instr.legalKxr (microRound w) then .ok (.kxr (microRound w)) else .error .illegalRound
  else if microOp w = 0x2#4 then
    if Instr.legalArk (microRound w) then .ok (.ark (microRound w)) else .error .illegalRound
  else if microOp w = 0x3#4 then noRound (microRound w) .sub
  else if microOp w = 0x4#4 then noRound (microRound w) .isub
  else if microOp w = 0x5#4 then noRound (microRound w) .shr
  else if microOp w = 0x6#4 then noRound (microRound w) .ishr
  else if microOp w = 0x7#4 then noRound (microRound w) .mix
  else if microOp w = 0x8#4 then noRound (microRound w) .imix
  else if microOp w = 0x9#4 then noRound (microRound w) .sto
  else .error .reservedOp

/-- The decoder of an encoded instruction. -/
def decode : Encoded → Except Reject Instr
  | .bus w => .ok (decodeB w)
  | .micro w => decodeM w

/-- A format-B word from its fields (R81). -/
def busWord (we : BitVec 1) (a : Addr) (v : Byte) : BusWord := we ++ a ++ v

/-- A format-M word from its fields (R83). -/
def microWord (op r : BitVec 4) : MicroWord := op ++ r

/-- The encoder, from the field tables of R81, R82 and R85; a read has `wdata` 0x00, the canonical
encoding of R81. -/
def encode : Instr → Encoded
  | .rd a => .bus (busWord 0 a 0x00)
  | .wr a v => .bus (busWord 1 a v)
  | .enc => .bus (busWord 1 0x30 0x01)
  | .dec => .bus (busWord 1 0x30 0x02)
  | .kxr r => .micro (microWord 0x1 r)
  | .ark r => .micro (microWord 0x2 r)
  | .sub => .micro (microWord 0x3 0)
  | .isub => .micro (microWord 0x4 0)
  | .shr => .micro (microWord 0x5 0)
  | .ishr => .micro (microWord 0x6 0)
  | .mix => .micro (microWord 0x7 0)
  | .imix => .micro (microWord 0x8 0)
  | .sto => .micro (microWord 0x9 0)

/-- A word of the opcode table as an encoded instruction: 15 bits (16 in whole bytes, bit 15 clear) is
format B, 8 bits is format M; a number that does not fit has no word of the format. -/
def encodedOfTable (nbits w : Nat) : Option Encoded :=
  if nbits = 15 ∨ nbits = 16 then
    if w < 2 ^ 15 then some (.bus (BitVec.ofNat 15 w)) else none
  else if nbits = 8 then
    if w < 2 ^ 8 then some (.micro (BitVec.ofNat 8 w)) else none
  else none

/-- The instruction the decoder reads from a word of spec/opcode_table.json. -/
def decodeTableWord (nbits w : Nat) : Option Instr :=
  match encodedOfTable nbits w with
  | none => none
  | some e =>
    match decode e with
    | .ok i => some i
    | .error _ => none

/-- One row of the opcode table (R85): its mnemonic, its match and its mask. -/
structure OpRow where
  mnemonic : String
  pattern : Nat
  mask : Nat
  deriving DecidableEq, Repr

/-- The format-B rows of spec/opcode_table.json, the more specific patterns first (R82, R90). -/
def busTable : List OpRow :=
  [⟨"ENC", 0x7001, 0x7FFF⟩, ⟨"DEC", 0x7002, 0x7FFF⟩, ⟨"WR", 0x4000, 0x4000⟩, ⟨"RD", 0x0000, 0x4000⟩]

/-- The format-M rows of spec/opcode_table.json (R85). -/
def microTable : List OpRow :=
  [⟨"KXR", 0x10, 0xF0⟩, ⟨"ARK", 0x20, 0xF0⟩, ⟨"SUB", 0x30, 0xFF⟩, ⟨"ISUB", 0x40, 0xFF⟩,
   ⟨"SHR", 0x50, 0xFF⟩, ⟨"ISHR", 0x60, 0xFF⟩, ⟨"MIX", 0x70, 0xFF⟩, ⟨"IMIX", 0x80, 0xFF⟩,
   ⟨"STO", 0x90, 0xFF⟩]

/-- The row a word of the table's numbering matches first. -/
def firstRow (rows : List OpRow) (w : Nat) : Option String :=
  (rows.find? fun row => w &&& row.mask == row.pattern).map OpRow.mnemonic

/-- The mnemonic of an instruction, as spec/opcode_table.json spells it. -/
def Instr.mnemonic : Instr → String
  | .rd _ => "RD"
  | .wr _ _ => "WR"
  | .enc => "ENC"
  | .dec => "DEC"
  | .kxr _ => "KXR"
  | .ark _ => "ARK"
  | .sub => "SUB"
  | .isub => "ISUB"
  | .shr => "SHR"
  | .ishr => "ISHR"
  | .mix => "MIX"
  | .imix => "IMIX"
  | .sto => "STO"

end Sys2Proof
end

