-- ==== Sys2Proof/Machine/State.lean ====
section
/-! DEFINITION. The state of the core (10_state.md R20, one field per element and no other state of the
core), the two agents' side of an execution as plain data, and the reset state (70_reset_and_hazards.md R230). -/

namespace Sys2Proof.Machine

/-- The direction of a command: `DIR` 0 for `ENC`, 1 for `DEC` (R29). -/
inductive Direction where
  | enc
  | dec
  deriving DecidableEq, Repr

/-- The causes of a host-interface error (R205). -/
inductive ErrorCause where
  /-- `E_CMD`, a reserved command byte (R202). -/
  | cmd
  /-- `E_BUSY`, a legal command while `BUSY == 1` (R203). -/
  | busy
  /-- `E_WRITE`, a write to a location that cannot be written (R204). -/
  | write
  deriving DecidableEq, Repr

/-- What a register address names (R51). -/
inductive Region where
  | key (i : Fin 16)
  | din (i : Fin 16)
  | dout (i : Fin 16)
  | ctrl
  | status
  | reserved
  deriving DecidableEq, Repr

/-- One turn of an execution (R64, R230). DESIGN CHOICE, log entry 1. -/
inductive Event where
  /-- HOST performs the access whose format-B word is `w` (R50, R81). -/
  | access (w : BusWord)
  /-- CORE has its turn (R174). -/
  | core
  /-- The environment asserts `rst` (R230). -/
  | reset
  deriving DecidableEq, Repr

/-- Why the machine stops. No state reachable from reset raises either. -/
inductive Fault where
  /-- A format-M word outside the 28 legal ones (R86, U1), raised by a CORE turn whose word the decoder
  rejects and by `KXR` and `ARK` with an illegal `r`. Safe: the spec gives such a word no meaning. -/
  | reservedMicroWord
  /-- `uprog` at a position past 50 (R175, U2), raised by a CORE turn. Safe: the spec defines no word there. -/
  | noMicroOperation
  deriving DecidableEq, Repr

/-- Why the model declines an instruction. -/
inductive Refusal where
  /-- The instruction has no meaning in the model; raised by an arm of `exec` only. No arm raises it. Safe. -/
  | notModelled (mnemonic : String)
  deriving DecidableEq, Repr

/-- The state record of R20, and after it the model's own fields for HOST and the environment. -/
structure State where
  /-- `KEY[0..15]` (R21). -/
  key : Block
  /-- `DIN[0..15]` (R22). -/
  din : Block
  /-- `DOUT[0..15]` (R23). -/
  dout : Block
  /-- `ST[0..15]`, internal ordering `ST[4*r + c]` (R34, R12). -/
  st : Block
  /-- `RK[0..10]`, external linear order (R35). -/
  rk : Vector Block 11
  /-- `RC` (R36). -/
  rc : Byte
  /-- `UPC` (R25). -/
  upc : BitVec 6
  /-- `BUSY` (R27). -/
  busy : Bool
  /-- `DONE` (R28). -/
  done : Bool
  /-- `DIR` (R29). -/
  dir : Direction
  /-- `ERR` (R32). -/
  err : Bool
  /-- `ECODE` (R32). -/
  ecode : BitVec 2
  /-- The turns still to come (R64). The model's own field: DESIGN CHOICE, log entry 1. -/
  schedule : List Event
  /-- The bytes `RD` has returned to HOST, oldest first (R55). The model's own field: DESIGN CHOICE,
  log entry 4. -/
  hostReads : List Byte
  deriving DecidableEq, Repr

/-- The machine right after reset: every element of R20 zero (R230). The two fields of the model's own
are empty (DESIGN CHOICE, log entry 5). -/
def State.reset : State where
  key := zeroBlock
  din := zeroBlock
  dout := zeroBlock
  st := zeroBlock
  rk := Vector.replicate 11 zeroBlock
  rc := 0x00
  upc := 0
  busy := false
  done := false
  dir := .enc
  err := false
  ecode := 0
  schedule := []
  hostReads := []

/-- The outcome of a step of this machine. -/
abbrev Result := Host.Outcome State Fault Refusal

end Sys2Proof.Machine
end

