-- ==== Sys2Proof/Machine/Flags.lean ====
section
/-! DEFINITION. The flags: `STATUS`, the output pins, the codes of the error causes
(10_state.md R27 to R32, R39, 60_exceptions.md R205). -/

namespace Sys2Proof.Machine

/-- A flag as a byte, 0x00 or 0x01. -/
def flagByte (b : Bool) : Byte := if b then 0x01 else 0x00

/-- `DIR` as a bit: 0 for `ENC`, 1 for `DEC` (R29). -/
def Direction.bit : Direction → Bool
  | .enc => false
  | .dec => true

/-- The code that `ECODE` records (R205). -/
def ErrorCause.code : ErrorCause → BitVec 2
  | .cmd => 1
  | .busy => 2
  | .write => 3

/-- `STATUS = BUSY | (DONE << 1) | (DIR << 2) | (ERR << 3) | (ECODE << 4)`; bits 7:6 read as 0 (R31). -/
def status (s : State) : Byte :=
  flagByte s.busy ||| (flagByte s.done <<< 1) ||| (flagByte s.dir.bit <<< 2) |||
    (flagByte s.err <<< 3) ||| (s.ecode.setWidth 8 <<< 4)

/-- The pin `busy` (R39). -/
def pinBusy (s : State) : Bool := s.busy

/-- The pin `done` (R39). -/
def pinDone (s : State) : Bool := s.done

/-- The pin `err` (R39). -/
def pinErr (s : State) : Bool := s.err

end Sys2Proof.Machine
end

