-- ==== Sys2Proof/Machine/Gf256.lean ====
section
/-! DEFINITION. The GF(2^8) multiplier (41_gf256.md R110 to R118). -/

namespace Sys2Proof.Machine

/-- `xtime`, the doubling primitive (R110): shift left one bit, and XOR 0x1B if bit 7 was set. -/
def xtime (b : Byte) : Byte := (b <<< 1) ^^^ (if b.getLsbD 7 then 0x1B#8 else 0x00#8)

/-- `xtime` applied `n` times (R111). -/
def xtimes : Nat → Byte → Byte
  | 0, b => b
  | n + 1, b => xtime (xtimes n b)

/-- The XOR over the bits `i < n` of `b` that are set of `xtime^i(a)` (R111). -/
def gmulBelow (a b : Byte) : Nat → Byte
  | 0 => 0x00
  | n + 1 => gmulBelow a b n ^^^ (if b.getLsbD n then xtimes n a else 0x00#8)

/-- `gmul(a, b)`, multiplication in GF(2^8) modulo x^8+x^4+x^3+x+1 (R111). -/
def gmul (a b : Byte) : Byte := gmulBelow a b 8

/-- R113. -/
def mul2 (b : Byte) : Byte := xtime b

/-- R114. -/
def mul3 (b : Byte) : Byte := xtime b ^^^ b

/-- R115. -/
def mul9 (b : Byte) : Byte := xtime (xtime (xtime b)) ^^^ b

/-- R116. -/
def mul11 (b : Byte) : Byte := xtime (xtime (xtime b)) ^^^ xtime b ^^^ b

/-- R117. -/
def mul13 (b : Byte) : Byte := xtime (xtime (xtime b)) ^^^ xtime (xtime b) ^^^ b

/-- R118. -/
def mul14 (b : Byte) : Byte := xtime (xtime (xtime b)) ^^^ xtime (xtime b) ^^^ xtime b

end Sys2Proof.Machine
end

