-- ==== Sys2Proof/Machine/Datapath.lean ====
section
/-! DEFINITION. The pure functions of the datapath on a 16-byte state in the internal ordering
`S[4*r + c]` (00_scope.md R12): substitution, ShiftRows, MixColumns, AddRoundKey, transpose. Position `i`
of the result is row `i / 4`, column `i % 4`. -/

namespace Sys2Proof.Machine

/-- `transpose(B)`: `T[4*r + c] = B[4*c + r]` (R170). -/
def transpose (B : Block) : Block := Vector.ofFn fun i : Fin 16 => B[4 * (i.val % 4) + i.val / 4]

/-- `sbox` on each of the 16 bytes (R103). -/
def subBytes (S : Block) : Block := Vector.ofFn fun i : Fin 16 => sbox S[i.val]

/-- `inv_sbox` on each of the 16 bytes (R104). -/
def invSubBytes (S : Block) : Block := Vector.ofFn fun i : Fin 16 => invSbox S[i.val]

/-- `shift_rows(S)`: `T[4*r + c] = S[4*r + ((c + r) mod 4)]` (R130). -/
def shiftRows (S : Block) : Block :=
  Vector.ofFn fun i : Fin 16 => S[4 * (i.val / 4) + (i.val % 4 + i.val / 4) % 4]

/-- `inv_shift_rows(S)`: `T[4*r + c] = S[4*r + ((c - r) mod 4)]`, the remainder not negative (R131, R11). -/
def invShiftRows (S : Block) : Block :=
  Vector.ofFn fun i : Fin 16 => S[4 * (i.val / 4) + (i.val % 4 + 4 - i.val / 4) % 4]

/-- Column `c` of the state, top to bottom (43_mixcolumns.md, opening). -/
def column (S : Block) (c : Fin 4) : Word4 := #v[S[c.val], S[4 + c.val], S[8 + c.val], S[12 + c.val]]

/-- A map applied to each column; no column reads another (R140). -/
def mapColumns (f : Word4 → Word4) (S : Block) : Block :=
  Vector.ofFn fun i : Fin 16 => (f (column S ⟨i.val % 4, Nat.mod_lt _ (by decide)⟩))[i.val / 4]

/-- One column of `mix_columns` (R140, orientation as in 90_conflicts.md C8). -/
def mixColumn (a : Word4) : Word4 :=
  #v[mul2 a[0] ^^^ mul3 a[1] ^^^ a[2] ^^^ a[3],
     a[0] ^^^ mul2 a[1] ^^^ mul3 a[2] ^^^ a[3],
     a[0] ^^^ a[1] ^^^ mul2 a[2] ^^^ mul3 a[3],
     mul3 a[0] ^^^ a[1] ^^^ a[2] ^^^ mul2 a[3]]

/-- One column of `inv_mix_columns` (R141). -/
def invMixColumn (a : Word4) : Word4 :=
  #v[mul14 a[0] ^^^ mul11 a[1] ^^^ mul13 a[2] ^^^ mul9 a[3],
     mul9 a[0] ^^^ mul14 a[1] ^^^ mul11 a[2] ^^^ mul13 a[3],
     mul13 a[0] ^^^ mul9 a[1] ^^^ mul14 a[2] ^^^ mul11 a[3],
     mul11 a[0] ^^^ mul13 a[1] ^^^ mul9 a[2] ^^^ mul14 a[3]]

/-- `mix_columns(S)` (R140). -/
def mixColumns (S : Block) : Block := mapColumns mixColumn S

/-- `inv_mix_columns(S)` (R141). -/
def invMixColumns (S : Block) : Block := mapColumns invMixColumn S

/-- `add_round_key(S, K)`: `T[4*r + c] = S[4*r + c] ^ K[4*c + r]` (R165). -/
def addRoundKey (S K : Block) : Block :=
  Vector.ofFn fun i : Fin 16 => S[i.val] ^^^ K[4 * (i.val % 4) + i.val / 4]

end Sys2Proof.Machine
end

