-- ==== Sys2Proof/Machine/KeySchedule.lean ====
section
/-! DEFINITION. The pure functions of the key expansion engine (44_keyexpansion.md R150 to R156), in the
external linear order. -/

namespace Sys2Proof.Machine

/-- `rot_word(w)` (R150). -/
def rotWord (w : Word4) : Word4 := #v[w[1], w[2], w[3], w[0]]

/-- `sub_word(w)` (R151). -/
def subWord (w : Word4) : Word4 := Vector.ofFn fun k : Fin 4 => sbox w[k.val]

/-- Bytewise XOR of two Words (R11). -/
def xorWord (a b : Word4) : Word4 := Vector.ofFn fun k : Fin 4 => a[k.val] ^^^ b[k.val]

/-- `rcon(j)` for `j` from 1: 2 to the power `j - 1` in GF(2^8) (R152). -/
def rcon (j : Nat) : Byte := xtimes (j - 1) 0x01

/-- XOR of a byte into index 0 of a Word (R153). -/
def xorFirst (w : Word4) (b : Byte) : Word4 := w.set 0 (w[0] ^^^ b)

/-- `T(i, w)` for a Word index `i` in 4..43 (R153). -/
def scheduleT (i : Nat) (w : Word4) : Word4 :=
  if i % 4 = 0 then xorFirst (subWord (rotWord w)) (rcon (i / 4)) else w

/-- Word `j` of a round key: bytes `4*j .. 4*j+3` (R154, R155). -/
def wordOf (K : Block) (j : Fin 4) : Word4 := Vector.ofFn fun k : Fin 4 => K[4 * j.val + k.val]

/-- Four Words as one round key (R155). -/
def joinWords (w0 w1 w2 w3 : Word4) : Block :=
  Vector.ofFn fun i : Fin 16 => #v[w0, w1, w2, w3][i.val / 4][i.val % 4]

/-- The first `n + 4` Words of the schedule, by the recurrence of R154. -/
def scheduleWords (K : Block) : (n : Nat) → Vector Word4 (n + 4)
  | 0 => #v[wordOf K 0, wordOf K 1, wordOf K 2, wordOf K 3]
  | n + 1 =>
    let ws := scheduleWords K n
    ws.push (xorWord ws[n] (scheduleT (n + 4) ws[n + 3]))

/-- The 44 Words (R154). -/
def expandWords (K : Block) : Vector Word4 44 := scheduleWords K 40

/-- Round key `r` as the Words `4r` to `4r + 3` (R155, 90_conflicts.md C1). -/
def roundKeyOfWords (K : Block) (r : Fin 11) : Block :=
  joinWords (expandWords K)[4 * r.val] (expandWords K)[4 * r.val + 1]
    (expandWords K)[4 * r.val + 2] (expandWords K)[4 * r.val + 3]

/-- `next_round_key(P, rc)` (R156). -/
def nextRoundKey (P : Block) (rc : Byte) : Block :=
  let t := xorFirst (subWord (rotWord (wordOf P 3))) rc
  let n0 := xorWord (wordOf P 0) t
  let n1 := xorWord (wordOf P 1) n0
  let n2 := xorWord (wordOf P 2) n1
  let n3 := xorWord (wordOf P 3) n2
  joinWords n0 n1 n2 n3

/-- `round_key(r)` of the key `K`, by repeated `next_round_key` (R156). -/
def roundKey (K : Block) : Nat → Block
  | 0 => K
  | r + 1 => nextRoundKey (roundKey K r) (rcon (r + 1))

/-- `expand_key(K)`, the RoundKeySchedule (R155, R156). -/
def expandKey (K : Block) : Vector Block 11 := Vector.ofFn fun r : Fin 11 => roundKey K r.val

end Sys2Proof.Machine
end

