-- ==== Sys2Proof/Machine/Ops.lean ====
section
/-! DEFINITION. The shared operations on the state: recording an error, accepting a command, the moves of
the datapath, reset. The hardware has no trap (60_exceptions.md R206): recording an error is the whole of
its exception behaviour. -/

namespace Sys2Proof.Machine

/-- `flag_error(code)`: the first error sets `ERR` and `ECODE`, a later one changes nothing (R201). -/
def flagError (c : ErrorCause) (s : State) : State :=
  if s.err then s else { s with err := true, ecode := c.code }

/-- `accept_command(dir)` (R173). -/
def acceptCommand (d : Direction) (s : State) : State :=
  { s with
    rk := s.rk.set 0 s.key
    st := transpose s.din
    rc := 0x01
    upc := 0
    dir := d
    busy := true
    done := false }

/-- The host step of a command: `E_BUSY` while busy, else acceptance (R177, R178). -/
def hostCommand (d : Direction) (s : State) : State :=
  if s.busy then flagError .busy s else acceptCommand d s

/-- A micro-operation that replaces `ST` by a function of its old value and advances `UPC`. -/
def updateSt (f : Block → Block) (s : State) : State :=
  { s with st := f s.st, upc := s.upc + 1 }

/-- The move of `KXR r`, `r` in 1..10 (R157). -/
def expandRound (r : Nat) (h : r < 11) (s : State) : State :=
  { s with
    rk := s.rk.set r (nextRoundKey s.rk[r - 1] s.rc)
    rc := xtime s.rc
    upc := s.upc + 1 }

/-- The move of `STO` (R186). -/
def storeResult (s : State) : State :=
  { s with dout := transpose s.st, busy := false, done := true, upc := 0 }

/-- Reset: every element of R20 takes its reset value (R230). What is outside the core, the turns to come
and the bytes HOST has received, stays (DESIGN CHOICE, log entry 5). -/
def applyReset (s : State) : State :=
  { State.reset with schedule := s.schedule, hostReads := s.hostReads }

/-- HOST receives a byte (R55). -/
def deliver (v : Byte) (s : State) : State := { s with hostReads := s.hostReads ++ [v] }

end Sys2Proof.Machine
end

