-- ==== Sys2Proof/Machine/Operands.lean ====
section
/-! DEFINITION. The one addressing mode (20_memory.md R58): the register map and the access primitives
`RegRead` and `RegWrite` (R51, R55, R56). -/

namespace Sys2Proof.Machine

/-- The register map (R51). -/
def region (a : Addr) : Region :=
  if h0 : a.toNat < 0x10 then .key ⟨a.toNat, h0⟩
  else if h1 : a.toNat < 0x20 then .din ⟨a.toNat - 0x10, by omega⟩
  else if h2 : a.toNat < 0x30 then .dout ⟨a.toNat - 0x20, by omega⟩
  else if a.toNat = 0x30 then .ctrl
  else if a.toNat = 0x31 then .status
  else .reserved

/-- `RegRead(a)` (R55): the byte at a register address. -/
def regRead (s : State) (a : Addr) : Byte :=
  match region a with
  | .key i => s.key[i.val]
  | .din i => s.din[i.val]
  | .dout i => s.dout[i.val]
  | .ctrl => 0x00
  | .status => status s
  | .reserved => 0x00

/-- A write of the byte `v` to `CTRL`: the byte is decoded before `BUSY` is consulted (R56, R208). -/
def writeCtrl (v : Byte) (s : State) : State :=
  if v = 0x01#8 then hostCommand .enc s
  else if v = 0x02#8 then hostCommand .dec s
  else flagError .cmd s

/-- `RegWrite(a, v)` (R56): the address decides first (R208). -/
def regWrite (a : Addr) (v : Byte) (s : State) : State :=
  match region a with
  | .key i => { s with key := s.key.set i.val v }
  | .din i => { s with din := s.din.set i.val v }
  | .dout _ => flagError .write s
  | .ctrl => writeCtrl v s
  | .status => flagError .write s
  | .reserved => flagError .write s

end Sys2Proof.Machine
end

