-- ==== Sys2Proof/Machine/HostAccess.lean ====
section
/-! DEFINITION. The meanings of the host accesses and commands: `RD`, `WR`, `ENC`, `DEC`. -/

namespace Sys2Proof.Machine

/-- `RD a` (R55): HOST receives the byte; no element of R20 changes (R57). -/
def execRd (a : Addr) (s : State) : Result := .next (deliver (regRead s a) s)

/-- `WR a, v` (R56). -/
def execWr (a : Addr) (v : Byte) (s : State) : Result := .next (regWrite a v s)

/-- `ENC` (R177). -/
def execEnc (s : State) : Result := .next (hostCommand .enc s)

/-- `DEC` (R178). -/
def execDec (s : State) : Result := .next (hostCommand .dec s)

end Sys2Proof.Machine
end

