-- ==== Sys2Proof/Machine/KeyOps.lean ====
section
/-! DEFINITION. The meanings of the micro-operations that use the round keys: `KXR`, `ARK`. -/

namespace Sys2Proof.Machine

/-- `KXR r`, `r` in 1..10 (R157). An `r` of 0 or 11..15 is a reserved word, to be given no meaning (R86). -/
def execKxr (r : BitVec 4) (s : State) : Result :=
  if h : 1 ≤ r.toNat ∧ r.toNat ≤ 10 then .next (expandRound r.toNat (by omega) s)
  else .fault .reservedMicroWord

/-- `ARK r`, `r` in 0..10 (R166). An `r` of 11..15 is a reserved word, to be given no meaning (R86). -/
def execArk (r : BitVec 4) (s : State) : Result :=
  if h : r.toNat ≤ 10 then .next (updateSt (fun S => addRoundKey S s.rk[r.toNat]) s)
  else .fault .reservedMicroWord

end Sys2Proof.Machine
end

