-- ==== Sys2Proof/Machine/StateOps.lean ====
section
/-! DEFINITION. The meanings of the micro-operations on `ST` alone, `SUB`, `ISUB`, `SHR`, `ISHR`, `MIX`,
`IMIX`, and of `STO`. -/

namespace Sys2Proof.Machine

/-- `SUB` (R103). -/
def execSub (s : State) : Result := .next (updateSt subBytes s)

/-- `ISUB` (R104). -/
def execIsub (s : State) : Result := .next (updateSt invSubBytes s)

/-- `SHR` (R132). -/
def execShr (s : State) : Result := .next (updateSt shiftRows s)

/-- `ISHR` (R133). -/
def execIshr (s : State) : Result := .next (updateSt invShiftRows s)

/-- `MIX` (R142). -/
def execMix (s : State) : Result := .next (updateSt mixColumns s)

/-- `IMIX` (R143). -/
def execImix (s : State) : Result := .next (updateSt invMixColumns s)

/-- `STO` (R186). -/
def execSto (s : State) : Result := .next (storeResult s)

end Sys2Proof.Machine
end

