-- ==== Sys2Proof/Machine/Sequencer.lean ====
section
/-! DEFINITION. The micro-sequencer (46_blocktransform.md R174 to R176): the fixed micro-program, the fetch
of the next micro-operation, and which turn of an execution comes next (20_memory.md R64). -/

namespace Sys2Proof.Machine

/-- `word(op, r) = (op << 4) | r` (R175). -/
def progWord (op r : Nat) : MicroWord := BitVec.ofNat 8 ((op <<< 4) ||| r)

/-- The four micro-operations of a middle round of `ENC`, by their place in the round (R175). -/
def encRoundWord (k r : Nat) : MicroWord :=
  if k = 0 then progWord 0x3 0
  else if k = 1 then progWord 0x5 0
  else if k = 2 then progWord 0x7 0
  else progWord 0x2 r

/-- The four micro-operations of a middle round of `DEC`, by their place in the round (R175). -/
def decRoundWord (k r : Nat) : MicroWord :=
  if k = 0 then progWord 0x2 r
  else if k = 1 then progWord 0x8 0
  else if k = 2 then progWord 0x6 0
  else progWord 0x4 0

/-- The part of `uprog` between the key expansion and `STO`, direction `ENC` (R175). -/
def uprogEnc (upc : Nat) : Option MicroWord :=
  if upc = 10 then some (progWord 0x2 0)
  else if 11 ≤ upc ∧ upc ≤ 46 then some (encRoundWord ((upc - 11) % 4) (1 + (upc - 11) / 4))
  else if upc = 47 then some (progWord 0x3 0)
  else if upc = 48 then some (progWord 0x5 0)
  else if upc = 49 then some (progWord 0x2 10)
  else none

/-- The part of `uprog` between the key expansion and `STO`, direction `DEC` (R175). -/
def uprogDec (upc : Nat) : Option MicroWord :=
  if upc = 10 then some (progWord 0x2 10)
  else if upc = 11 then some (progWord 0x6 0)
  else if upc = 12 then some (progWord 0x4 0)
  else if 13 ≤ upc ∧ upc ≤ 48 then some (decRoundWord ((upc - 13) % 4) (9 - (upc - 13) / 4))
  else if upc = 49 then some (progWord 0x2 0)
  else none

/-- `uprog(dir, upc)` (R175); `none` past position 50, where it is not defined. -/
def uprog (d : Direction) (upc : Nat) : Option MicroWord :=
  if upc ≤ 9 then some (progWord 0x1 (upc + 1))
  else if upc = 50 then some (progWord 0x9 0)
  else match d with
    | .enc => uprogEnc upc
    | .dec => uprogDec upc

/-- `round(dir, upc)`, the round index for `upc` in 10..49 (R176). -/
def roundIndex (d : Direction) (upc : Nat) : Option Nat :=
  match d with
  | .enc =>
    if upc = 10 then some 0
    else if 11 ≤ upc ∧ upc ≤ 46 then some (1 + (upc - 11) / 4)
    else if 47 ≤ upc ∧ upc ≤ 49 then some 10
    else none
  | .dec =>
    if 10 ≤ upc ∧ upc ≤ 12 then some 10
    else if 13 ≤ upc ∧ upc ≤ 48 then some (9 - (upc - 13) / 4)
    else if upc = 49 then some 0
    else none

/-- The micro-operation CORE performs next: the word at (`DIR`, `UPC`), decoded (R174). -/
def fetchMicro (s : State) : Except Fault Instr :=
  match uprog s.dir s.upc.toNat with
  | none => .error .noMicroOperation
  | some w =>
    match decodeM w with
    | .ok i => .ok i
    | .error _ => .error .reservedMicroWord

/-- The turn that comes next. With no turn scheduled CORE has it, so that a busy core eventually steps
(R174); DESIGN CHOICE, log entry 2. -/
def nextEvent (s : State) : Event :=
  match s.schedule with
  | [] => .core
  | e :: _ => e

/-- The state with the turns `es` still to come. -/
def reschedule (es : List Event) (s : State) : State := { s with schedule := es }

/-- The state once that turn has been taken off the schedule. -/
def dropEvent (s : State) : State := reschedule s.schedule.tail s

/-- The positions of one micro-program, in order. -/
def positions (d : Direction) : List (Direction × Nat) := (List.range 51).map fun n => (d, n)

/-- The first position at which a micro-program holds the word `w`: `ENC` before `DEC`. -/
def positionOf (w : MicroWord) : Option (Direction × Nat) :=
  (positions .enc ++ positions .dec).find? fun p => uprog p.1 p.2 == some w

/-- A state in which the next turn is CORE's, at the given position of the micro-program. -/
def atPosition (d : Direction) (upc : BitVec 6) (s : State) : State :=
  reschedule (.core :: s.schedule) { s with dir := d, upc := upc, busy := true }

/-- A state in which the next turn performs the encoded instruction; an instruction that nothing can
make the machine perform gets position 63, at which the sequencer stops by name. Log entry 13. -/
def placeWord (e : Option Encoded) (s : State) : State :=
  match e with
  | some (.bus w) => reschedule (.access w :: s.schedule) s
  | some (.micro w) =>
    match positionOf w with
    | some (d, n) => atPosition d (BitVec.ofNat 6 n) s
    | none => atPosition s.dir 63 s
  | none => atPosition s.dir 63 s

end Sys2Proof.Machine
end

