-- ==== Sys2Proof/Machine/Turn.lean ====
section
/-! DEFINITION. What each turn of an execution does (20_memory.md R64, 46_blocktransform.md R174,
70_reset_and_hazards.md R230). -/

namespace Sys2Proof.Machine

/-- CORE's turn: the micro-operation at (`DIR`, `UPC`) when `BUSY == 1`; an idle core has no step and the
turn changes nothing (R174; log entry 3). -/
def coreTurn (s : State) : Host.Outcome State Fault Refusal :=
  if s.busy then
    match fetchMicro s with
    | .ok i => exec i s
    | .error f => .fault f
  else .next s

/-- The turn `e` in the state `s`. -/
def turn (e : Event) (s : State) : Host.Outcome State Fault Refusal :=
  match e with
  | .access w => exec (decodeB w) s
  | .core => coreTurn s
  | .reset => .next (applyReset s)

end Sys2Proof.Machine
end

