-- ==== Sys2Proof/Machine/Step.lean ====
section
/-! DEFINITION. One step: the next turn of the interleaving (20_memory.md R64) is taken by the agent it
belongs to. -/

namespace Sys2Proof.Machine

/-- One step of the machine. -/
def step (s : State) : Host.Outcome State Fault Refusal := turn (nextEvent s) (dropEvent s)

/-- The state whose next step performs the table word `w` (log entry 13). -/
def State.withFetchWord (s : State) (nbits w : Nat) : State := placeWord (encodedOfTable nbits w) s

end Sys2Proof.Machine
end

