-- ==== Sys2Proof/Machine/Bus.lean ====
section
/-! DEFINITION. The bus pins, the clocked view as a schedule, and the pseudo-instructions of the host syntax
as the accesses they expand to (20_memory.md R50, 70_reset_and_hazards.md R250, 30_encoding.md R89). None of
it is part of a step. -/

namespace Sys2Proof.Machine

/-- The input pins of one clock cycle (R50). -/
structure BusPins where
  rst : Bool
  sel : Bool
  we : Bool
  addr : Addr
  wdata : Byte
  deriving DecidableEq, Repr

/-- The access on the pins as a format-B word (R50, R81). -/
def pinsWord (p : BusPins) : BusWord := busWord (BitVec.ofBool p.we) p.addr p.wdata

/-- The turns of one clock cycle, which begins in the state `s`: reset and nothing else; otherwise the
access if `sel`, then a CORE step if `BUSY` was 1 at the start (R250). Informative; log entry 14. -/
def cycleEvents (p : BusPins) (s : State) : List Event :=
  if p.rst then [.reset]
  else (if p.sel then [.access (pinsWord p)] else []) ++ (if s.busy then [.core] else [])

/-- The turn by which HOST performs an instruction; a micro-operation is none of HOST's (R88). -/
def hostEvent (i : Instr) : Option Event :=
  match encode i with
  | .bus w => some (.access w)
  | .micro _ => none

/-- The turns by which HOST performs a list of instructions. -/
def hostEvents (is : List Instr) : List Event := is.filterMap hostEvent

/-- `LDKEY b0 ... b15` (R89). -/
def ldkey (b : Block) : List Instr := List.ofFn fun i : Fin 16 => .wr (BitVec.ofNat 6 i.val) b[i.val]

/-- `LDBLK b0 ... b15` (R89). -/
def ldblk (b : Block) : List Instr := List.ofFn fun i : Fin 16 => .wr (BitVec.ofNat 6 (0x10 + i.val)) b[i.val]

/-- `RDBLK` (R89). -/
def rdblk : List Instr := List.ofFn fun i : Fin 16 => .rd (BitVec.ofNat 6 (0x20 + i.val))

/-- The exit test of `WAIT`: bit 1 (`DONE`) of the byte that `RD 0x31` returned is set (R89). -/
def waitOver (b : Byte) : Bool := b.getLsbD 1

/-- `ENCRYPT k, p` up to its command: `LDKEY`, `LDBLK`, `ENC` (R89). -/
def encryptStart (k p : Block) : List Instr := ldkey k ++ ldblk p ++ [.enc]

/-- `DECRYPT k, c` up to its command: `LDKEY`, `LDBLK`, `DEC` (R89). -/
def decryptStart (k c : Block) : List Instr := ldkey k ++ ldblk c ++ [.dec]

end Sys2Proof.Machine
end

