-- ==== Sys2Proof/Machine/Cipher.lean ====
section
/-! DEFINITION. The two block functions (46_blocktransform.md R171, R172), the pure functions that an
operation computes (R187). They are no part of a step. -/

namespace Sys2Proof.Machine

/-- One of the rounds 1..9 of encryption (R171). -/
def encryptRound (K S : Block) (r : Nat) : Block :=
  addRoundKey (mixColumns (shiftRows (subBytes S))) (roundKey K r)

/-- `encrypt_block(P, K)` (R171). -/
def encryptBlock (P K : Block) : Block :=
  let S := addRoundKey (transpose P) (roundKey K 0)
  let S := [1, 2, 3, 4, 5, 6, 7, 8, 9].foldl (encryptRound K) S
  transpose (addRoundKey (shiftRows (subBytes S)) (roundKey K 10))

/-- One of the rounds 9..1 of decryption (R172). -/
def decryptRound (K S : Block) (r : Nat) : Block :=
  invSubBytes (invShiftRows (invMixColumns (addRoundKey S (roundKey K r))))

/-- `decrypt_block(C, K)` (R172). -/
def decryptBlock (C K : Block) : Block :=
  let S := invSubBytes (invShiftRows (addRoundKey (transpose C) (roundKey K 10)))
  let S := [9, 8, 7, 6, 5, 4, 3, 2, 1].foldl (decryptRound K) S
  transpose (addRoundKey S (roundKey K 0))

/-- The block function of a direction (R187). -/
def blockFunction : Direction → Block → Block → Block
  | .enc => encryptBlock
  | .dec => decryptBlock

end Sys2Proof.Machine
end

