-- ==== Sys2Proof/Safety.lean ====
section
/-! DEFINITION. The terms in which claims are made: runs over a given interleaving, the state of an
operation in progress, the invariant of 10_state.md R40, and what the host did during an operation. -/

namespace Sys2Proof.Machine

/-- The run from `s` in which exactly the turns `es` are taken, in that order, by steps of the machine. -/
def drive (es : List Event) (s : State) : Result :=
  Host.Core.run Sys2Proof.core es.length (reschedule es s)

/-- The command instruction of a direction. -/
def commandInstr : Direction → Instr
  | .enc => .enc
  | .dec => .dec

/-- The format-B word of a command (R82). -/
def commandWord : Direction → BusWord
  | .enc => 0x7001
  | .dec => 0x7002

/-- The two states agree on every element of R20 (not on the model's own fields). -/
def SameCore (s t : State) : Prop :=
  s.key = t.key ∧ s.din = t.din ∧ s.dout = t.dout ∧ s.st = t.st ∧ s.rk = t.rk ∧ s.rc = t.rc ∧
    s.upc = t.upc ∧ s.busy = t.busy ∧ s.done = t.done ∧ s.dir = t.dir ∧ s.err = t.err ∧ s.ecode = t.ecode

/-- The two states agree on everything the host can read and on what decides whether a command is taken. -/
def SameVisible (s t : State) : Prop :=
  s.key = t.key ∧ s.din = t.din ∧ s.dout = t.dout ∧ s.busy = t.busy ∧ s.done = t.done ∧ s.dir = t.dir ∧
    s.err = t.err ∧ s.ecode = t.ecode

/-- The two states agree on the hidden elements (R52). -/
def SameHidden (s t : State) : Prop := s.st = t.st ∧ s.rk = t.rk ∧ s.rc = t.rc ∧ s.upc = t.upc

/-- The two states agree but for `ERR`, `ECODE` and the bytes HOST has received. -/
def SameButErrors (s t : State) : Prop :=
  t = { s with err := t.err, ecode := t.ecode, hostReads := t.hostReads }

/-- The two states agree but for `KEY` and `DIN`. -/
def SameButOperands (s t : State) : Prop := t = { s with key := t.key, din := t.din }

/-- The product over GF(2^8) of one matrix row, its entries `k0` to `k3`, with column `c` of the state
(R140, R141: the XOR over `k` of `gmul(M[r][k], S[4*k + c])`). -/
def rowTimesColumn (k0 k1 k2 k3 : Byte) (S : Block) (c : Fin 4) : Byte :=
  gmul k0 S[c.val] ^^^ gmul k1 S[4 + c.val] ^^^ gmul k2 S[8 + c.val] ^^^ gmul k3 S[12 + c.val]

/-- The micro-operation at a position of a micro-program. -/
def progInstr (d : Direction) (n : Nat) : Option Instr :=
  match uprog d n with
  | none => none
  | some w => (decodeM w).toOption

/-- What a micro-operation does to `ST` when the round-key store holds the schedule of `K`. -/
def microOnSt (K : Block) (i : Instr) (S : Block) : Block :=
  match i with
  | .ark r => addRoundKey S (roundKey K r.toNat)
  | .sub => subBytes S
  | .isub => invSubBytes S
  | .shr => shiftRows S
  | .ishr => invShiftRows S
  | .mix => mixColumns S
  | .imix => invMixColumns S
  | .kxr _ => S
  | .sto => S
  | .rd _ => S
  | .wr _ _ => S
  | .enc => S
  | .dec => S

/-- `ST` after the first `n` micro-operations of an operation accepted with `DIN == P` and `KEY == K`. -/
def stAfter (d : Direction) (P K : Block) : Nat → Block
  | 0 => transpose P
  | n + 1 =>
    match progInstr d n with
    | none => stAfter d P K n
    | some i => microOnSt K i (stAfter d P K n)

/-- The part of the invariant of R40 about an operation, `P` and `K` being `DIN` and `KEY` when the last
command was accepted; `working` adds what `ST` holds, without which (f) is not kept by a step. -/
structure OperationInv (s : State) (P K : Block) : Prop where
  /-- R40 (a). -/
  idle : s.busy = false → s.upc = 0
  /-- R40 (b). -/
  running : s.busy = true → s.done = false ∧ s.upc.toNat ≤ 50
  /-- R40 (d). -/
  keys : s.busy = true → ∀ j : Fin 11, j.val ≤ s.upc.toNat → s.rk[j.val] = roundKey K j.val
  /-- R40 (e). -/
  constant : s.busy = true → s.rc = rcon (min s.upc.toNat 10 + 1)
  /-- `ST` during an operation. -/
  working : s.busy = true → s.st = stAfter s.dir P K s.upc.toNat
  /-- R40 (f). -/
  result : s.done = true → s.dout = blockFunction s.dir P K

/-- The invariant of R40, `P` and `K` being `DIN` and `KEY` when the last command was accepted. -/
structure Inv (s : State) (P K : Block) : Prop where
  operation : OperationInv s P K
  /-- R40 (c). -/
  errors : s.err = false ↔ s.ecode = 0

/-- A safe state: the invariant holds for some operands. -/
def Safe (s : State) : Prop := ∃ P K, Inv s P K

/-- The next step accepts a command (R173). -/
def acceptsNext (s : State) : Bool :=
  !s.busy && (nextEvent s == .access (commandWord .enc) || nextEvent s == .access (commandWord .dec))

/-- The input block of the last accepted command once the next step is done, `P` being it before. -/
def blockAfter (s : State) (P : Block) : Block := if acceptsNext s then s.din else P

/-- The key of the last accepted command once the next step is done, `K` being it before. -/
def keyAfter (s : State) (K : Block) : Block := if acceptsNext s then s.key else K

/-- The byte a turn writes to the register address `a` by a `WR`, if it does. -/
def writtenBy (a : Addr) (e : Event) : Option Byte :=
  match e with
  | .access w =>
    match decodeB w with
    | .wr b v => if b = a then some v else none
    | _ => none
  | .core => none
  | .reset => none

/-- The byte last written to `a` in a list of turns, or `old`. -/
def lastWritten (a : Addr) (old : Byte) (es : List Event) : Byte :=
  (es.reverse.findSome? (writtenBy a)).getD old

/-- The error a turn causes when it falls while `BUSY == 1` (R202 to R204). -/
def errorWhileBusy (e : Event) : Option ErrorCause :=
  match e with
  | .access w =>
    match decodeB w with
    | .enc => some .busy
    | .dec => some .busy
    | .wr a _ =>
      match region a with
      | .key _ => none
      | .din _ => none
      | .ctrl => some .cmd
      | .dout _ => some .write
      | .status => some .write
      | .reserved => some .write
    | _ => none
  | .core => none
  | .reset => none

/-- The first error of a list of turns that fall while `BUSY == 1`. -/
def firstError (es : List Event) : Option ErrorCause := es.findSome? errorWhileBusy

end Sys2Proof.Machine
end

