-- ==== Sys2Proof/Certificates/Slice0/Obligations.lean ====
section
/-! DEFINITION. The statements for the provers. -/

open Sys2Proof Sys2Proof.Machine

/-! ## Reset, turns, the invariant -/

/-- R230: a reset turn zeroes every element of R20, whatever the state was; then every address reads 0x00,
the pins are 0 and CORE has no step (`BUSY == 0`, R174); `State.reset` is that state. -/
def Obligations.ResetZeroesTheCore : Prop :=
  (∀ s : State, ∃ t, turn .reset s = .next t ∧ SameCore t State.reset ∧ (∀ a, regRead t a = 0x00) ∧
    pinBusy t = false ∧ pinDone t = false ∧ pinErr t = false) ∧
  (∀ (i : Nat) (h : i < 16), State.reset.key[i] = 0x00 ∧ State.reset.din[i] = 0x00 ∧
    State.reset.dout[i] = 0x00 ∧ State.reset.st[i] = 0x00) ∧
  (∀ (r i : Nat) (hr : r < 11) (hi : i < 16), State.reset.rk[r][i] = 0x00) ∧
  State.reset.rc = 0x00 ∧ State.reset.upc = 0 ∧ State.reset.busy = false ∧ State.reset.done = false ∧
  State.reset.dir = .enc ∧ State.reset.err = false ∧ State.reset.ecode = 0

/-- A step takes the next turn: a scheduled access is `exec` of its decoded word, CORE's turn while busy is
`exec` of the decoded word of the micro-program at (`DIR`, `UPC`), a scheduled reset is the reset. The
schedule, its default when empty, the idle CORE turn, and that a reset leaves the rest of the schedule and
`hostReads` as they are, are the model's choice (log entries 1, 2, 3, 5). -/
def Obligations.StepRunsTheDecodedInstruction : Prop :=
  (∀ (s : State) w rest, s.schedule = .access w :: rest →
    step s = exec (decodeB w) { s with schedule := rest }) ∧
  (∀ (s : State) w i rest, (s.schedule = .core :: rest ∨ s.schedule = [] ∧ rest = []) → s.busy = true →
    uprog s.dir s.upc.toNat = some w → decodeM w = .ok i → step s = exec i { s with schedule := rest }) ∧
  (∀ (s : State) rest, (s.schedule = .core :: rest ∨ s.schedule = [] ∧ rest = []) → s.busy = false →
    step s = .next { s with schedule := rest }) ∧
  (∀ (s : State) rest, s.schedule = .reset :: rest →
    step s = .next { State.reset with schedule := rest, hostReads := s.hostReads })

/-- Log entry 13 (the model's choice): after `withFetchWord` the very next step performs the decoded
instruction, in a state that differs from `s` at most in `UPC`, `BUSY` and `DIR`. -/
def Obligations.FetchWordRunsNext : Prop :=
  ∀ (s : State) nbits w i, decodeTableWord nbits w = some i →
    ∃ s', step (s.withFetchWord nbits w) = exec i s' ∧
      s' = { s with upc := s'.upc, busy := s'.busy, dir := s'.dir }

/-- The invariant of R40 holds at reset (for any operands: no command has been accepted). -/
def Obligations.ResetMeetsR40 : Prop := ∀ P K : Block, Inv State.reset P K

/-- R40: every step from every state that meets the invariant, whatever turn it takes, keeps it; the
operands change only in a step that accepts a command. -/
def Obligations.StepKeepsR40 : Prop :=
  ∀ (s t : State) (P K : Block), Inv s P K → step s = .next t → Inv t (blockAfter s P) (keyAfter s K)

/-- R174, R200: from a state that meets the invariant no step faults or is refused, whatever turn it takes
and whatever the data. (The idle CORE turn is the model's choice, log entry 3.) -/
def Obligations.SafeStateNeverStops : Prop := ∀ s : State, Safe s → ∃ t, step s = .next t

/-! ## Encodings -/

/-- Decoding the encoding of a well-formed instruction gives it back, for every instruction and operand. (That the
`WR` of a command byte is no well-formed `WR` is log entry 12.) -/
def Obligations.DecodeOfEncode : Prop := ∀ i : Instr, i.wf = true → decode (encode i) = .ok i

/-- The other direction: a decoded instruction is well-formed and its encoding is the word, but for the
ignored `wdata` of a read, which the encoder makes 0x00 (R81, log entry 11). -/
def Obligations.EncodeOfDecode : Prop :=
  (∀ (w : MicroWord) i, decodeM w = .ok i → i.wf = true ∧ encode i = .micro w) ∧
  (∀ w : BusWord, (decodeB w).wf = true ∧
    encode (decodeB w) = .bus (if busWe w then w else busWord 0 (busAddr w) 0x00))

/-- R90: a word decodes to the mnemonic of the first row of the opcode table that it matches (`ENC` and
`DEC` before `WR`), and two different well-formed instructions have different words. -/
def Obligations.DecodeFollowsTheOpcodeTable : Prop :=
  (∀ w : BusWord, firstRow busTable w.toNat = some (decodeB w).mnemonic) ∧
  (∀ (w : MicroWord) i, decodeM w = .ok i → firstRow microTable w.toNat = some i.mnemonic) ∧
  (∀ i j : Instr, i.wf = true → j.wf = true → encode i = encode j → i = j)

/-- R85, R86: the legal format-M words are the 28 listed; every one occurs in a micro-program and no other
word does; each reserved word is rejected. -/
def Obligations.LegalMicroWordsAreThe28 : Prop :=
  ∀ w : MicroWord,
    ((∃ i, decodeM w = .ok i) ↔
      (0x11 ≤ w.toNat ∧ w.toNat ≤ 0x1A) ∨ (0x20 ≤ w.toNat ∧ w.toNat ≤ 0x2A) ∨ w = 0x30 ∨ w = 0x40 ∨
        w = 0x50 ∨ w = 0x60 ∨ w = 0x70 ∨ w = 0x80 ∨ w = 0x90) ∧
    ((∃ i, decodeM w = .ok i) ↔ ∃ d n, uprog d n = some w)

/-- Words written out from R81, R82 and R85. -/
def Obligations.SampleWordsDecode : Prop :=
  decodeB 0b011000100000000 = .rd 0x31 ∧ decodeB 0b100000001010100 = .wr 0x00 0x54 ∧
  decodeB 0b111000000000001 = .enc ∧ decodeB 0b111000000000010 = .dec ∧
  decodeM 0b00011010 = .ok (.kxr 10) ∧ decodeM 0b00101010 = .ok (.ark 10) ∧
  decodeM 0b00110000 = .ok .sub ∧ decodeM 0b01000000 = .ok .isub ∧ decodeM 0b01010000 = .ok .shr ∧
  decodeM 0b01100000 = .ok .ishr ∧ decodeM 0b01110000 = .ok .mix ∧ decodeM 0b10000000 = .ok .imix ∧
  decodeM 0b10010000 = .ok .sto

/-- R82: a command byte is the `wdata` of a `WR` to 0x30, all 8 bits compared; the `WR` of a command byte
does what the command does. -/
def Obligations.CommandIsAWriteToCtrl : Prop :=
  (∀ v : Byte, decodeC v = if v = 0x01 then .ok .enc else if v = 0x02 then .ok .dec
    else .error .reservedCommand) ∧
  (∀ (v : Byte) i, decodeC v = .ok i → decodeB (busWord 1 0x30 v) = i) ∧
  busWord 1 0x30 0x01 = 0x7001 ∧ busWord 1 0x30 0x02 = 0x7002 ∧ decodeB 0x7001 = .enc ∧ decodeB 0x7002 = .dec ∧
  (∀ s : State, exec (.wr 0x30 0x01) s = exec .enc s ∧ exec (.wr 0x30 0x02) s = exec .dec s)

/-! ## Host accesses -/

/-- R55: `RD a` returns the byte the register map gives and writes no state. (The bytes returned stand in
the model's own field `hostReads`, log entry 4.) -/
def Obligations.ReadReturnsTheMappedByte : Prop :=
  ∀ s : State,
    (∀ (i : Nat) (h : i < 16),
      exec (.rd (BitVec.ofNat 6 i)) s = .next { s with hostReads := s.hostReads ++ [s.key[i]] } ∧
      exec (.rd (BitVec.ofNat 6 (0x10 + i))) s = .next { s with hostReads := s.hostReads ++ [s.din[i]] } ∧
      exec (.rd (BitVec.ofNat 6 (0x20 + i))) s = .next { s with hostReads := s.hostReads ++ [s.dout[i]] }) ∧
    exec (.rd 0x30) s = .next { s with hostReads := s.hostReads ++ [0x00] } ∧
    exec (.rd 0x31) s = .next { s with hostReads := s.hostReads ++
      [0#2 ++ s.ecode ++ BitVec.ofBool s.err ++ BitVec.ofBool (s.dir == .dec) ++ BitVec.ofBool s.done ++
        BitVec.ofBool s.busy] } ∧
    (∀ a : Addr, 0x32 ≤ a.toNat → exec (.rd a) s = .next { s with hostReads := s.hostReads ++ [0x00] })

/-- R56, R21, R22: a `WR` to `KEY` or `DIN` stores the byte, busy or idle, and changes nothing else: no other
element, and no other address reads differently. -/
def Obligations.WriteStoresOneOperandByte : Prop :=
  ∀ (s : State) (v : Byte) (i : Nat) (h : i < 16),
    (∃ t, exec (.wr (BitVec.ofNat 6 i) v) s = .next t ∧ t.key[i] = v ∧
      (∀ (j : Nat) (hj : j < 16), j ≠ i → t.key[j] = s.key[j]) ∧ t = { s with key := t.key } ∧
      regRead t (BitVec.ofNat 6 i) = v ∧ ∀ a, a ≠ BitVec.ofNat 6 i → regRead t a = regRead s a) ∧
    (∃ t, exec (.wr (BitVec.ofNat 6 (0x10 + i)) v) s = .next t ∧ t.din[i] = v ∧
      (∀ (j : Nat) (hj : j < 16), j ≠ i → t.din[j] = s.din[j]) ∧ t = { s with din := t.din } ∧
      regRead t (BitVec.ofNat 6 (0x10 + i)) = v ∧
      ∀ a, a ≠ BitVec.ofNat 6 (0x10 + i) → regRead t a = regRead s a)

/-- R201 to R204, R208: the three causes of an error, and that an erroneous access sets `ERR`, keeps the
first code and changes nothing else. The address decides first, then the command byte, then `BUSY`. -/
def Obligations.ErrorsAreOnlyRecorded : Prop :=
  ∀ s : State,
    (∀ (a : Addr) (v : Byte), 0x20 ≤ a.toNat → a ≠ 0x30 →
      exec (.wr a v) s = .next { s with err := true, ecode := if s.err then s.ecode else 3 }) ∧
    (∀ v : Byte, v ≠ 0x01 → v ≠ 0x02 →
      exec (.wr 0x30 v) s = .next { s with err := true, ecode := if s.err then s.ecode else 1 }) ∧
    (∀ d, s.busy = true →
      exec (commandInstr d) s = .next { s with err := true, ecode := if s.err then s.ecode else 2 })

/-- R173: acceptance of `ENC` and `DEC` by an idle core, in one step: the snapshot of `KEY` and `DIN` and the
start of the micro-program; nothing else is written. A busy core accepts no command: `ErrorsAreOnlyRecorded`. -/
def Obligations.IdleCoreAcceptsACommand : Prop :=
  ∀ (s : State) (d : Direction), s.busy = false →
    ∃ t, exec (commandInstr d) s = .next t ∧ t.rk[0] = s.key ∧
      (∀ (r : Nat) (h : r < 11), r ≠ 0 → t.rk[r] = s.rk[r]) ∧
      (∀ (r c : Nat) (hr : r < 4) (hc : c < 4), t.st[4 * r + c] = s.din[4 * c + r]) ∧
      t.rc = 0x01 ∧ t.upc = 0 ∧ t.dir = d ∧ t.busy = true ∧ t.done = false ∧
      t = { s with rk := t.rk, st := t.st, rc := t.rc, upc := t.upc, dir := t.dir, busy := t.busy,
                   done := t.done }

/-- R89: after `LDKEY b` register `KEY` is `b`, after `LDBLK b` register `DIN` is, in whatever order the 16
accesses are made; nothing else of the core changes. -/
def Obligations.LoadsFillTheRegisterInAnyOrder : Prop :=
  ∀ (s : State) (b : Block) (es : List Event),
    (es.Perm (hostEvents (ldkey b)) → drive es s = .next { s with key := b, schedule := [] }) ∧
    (es.Perm (hostEvents (ldblk b)) → drive es s = .next { s with din := b, schedule := [] })

/-! ## Micro-operations -/

/-- R157: `KXR r`, `r` in 1..10: its word, its effect, what it leaves alone, its place in both micro-programs. -/
def Obligations.KeyExpansionRound : Prop :=
  ∀ (s : State) (r : Nat) (h1 : 1 ≤ r) (h10 : r ≤ 10),
    decodeM (BitVec.ofNat 8 (0x10 + r)) = .ok (.kxr (BitVec.ofNat 4 r)) ∧
    ∃ t, exec (.kxr (BitVec.ofNat 4 r)) s = .next t ∧ t.rk[r] = nextRoundKey s.rk[r - 1] s.rc ∧
      (∀ (j : Nat) (hj : j < 11), j ≠ r → t.rk[j] = s.rk[j]) ∧ t.rc = xtime s.rc ∧
      t.upc = s.upc + 1 ∧ t = { s with rk := t.rk, rc := t.rc, upc := t.upc } ∧
      (∀ a, regRead t a = regRead s a) ∧
      ∀ d n, progInstr d n = some (.kxr (BitVec.ofNat 4 r)) ↔ n = r - 1

/-- R166: `ARK r`, `r` in 0..10: its word, its effect, what it leaves alone, and its one place in each
micro-program, in ascending order of `r` for `ENC` and descending for `DEC`. -/
def Obligations.AddRoundKeyMicroOperation : Prop :=
  ∀ (s : State) (r : Nat) (h10 : r ≤ 10),
    decodeM (BitVec.ofNat 8 (0x20 + r)) = .ok (.ark (BitVec.ofNat 4 r)) ∧
    ∃ t, exec (.ark (BitVec.ofNat 4 r)) s = .next t ∧
      (∀ (row col : Nat) (hr : row < 4) (hc : col < 4),
        t.st[4 * row + col] = s.st[4 * row + col] ^^^ s.rk[r][4 * col + row]) ∧
      t.upc = s.upc + 1 ∧ t = { s with st := t.st, upc := t.upc } ∧ (∀ a, regRead t a = regRead s a) ∧
      (∀ n, progInstr .enc n = some (.ark (BitVec.ofNat 4 r)) ↔ n = if r = 10 then 49 else 10 + 4 * r) ∧
      ∀ n, progInstr .dec n = some (.ark (BitVec.ofNat 4 r)) ↔ n = if r = 10 then 10 else 49 - 4 * r

/-- R103, R104: `SUB` and `ISUB`: words, effects, frame. -/
def Obligations.SubstitutionMicroOperations : Prop :=
  decodeM 0x30 = .ok .sub ∧ decodeM 0x40 = .ok .isub ∧ ∀ s : State,
    (∃ t, exec .sub s = .next t ∧ (∀ (i : Nat) (h : i < 16), t.st[i] = sbox s.st[i]) ∧
      t.upc = s.upc + 1 ∧ t = { s with st := t.st, upc := t.upc } ∧ ∀ a, regRead t a = regRead s a) ∧
    (∃ t, exec .isub s = .next t ∧ (∀ (i : Nat) (h : i < 16), t.st[i] = invSbox s.st[i]) ∧
      t.upc = s.upc + 1 ∧ t = { s with st := t.st, upc := t.upc } ∧ ∀ a, regRead t a = regRead s a)

/-- R132, R133: `SHR` and `ISHR`: words, effects with the rotation of R130 and R131 written out, frame. -/
def Obligations.ShiftRowsMicroOperations : Prop :=
  decodeM 0x50 = .ok .shr ∧ decodeM 0x60 = .ok .ishr ∧ ∀ s : State,
    (∃ t, exec .shr s = .next t ∧
      (∀ (r c : Nat) (hr : r < 4) (hc : c < 4), t.st[4 * r + c] = s.st[4 * r + (c + r) % 4]) ∧
      t.upc = s.upc + 1 ∧ t = { s with st := t.st, upc := t.upc } ∧ ∀ a, regRead t a = regRead s a) ∧
    (∃ t, exec .ishr s = .next t ∧
      (∀ (r c : Nat) (hr : r < 4) (hc : c < 4), t.st[4 * r + (c + r) % 4] = s.st[4 * r + c]) ∧
      t.upc = s.upc + 1 ∧ t = { s with st := t.st, upc := t.upc } ∧ ∀ a, regRead t a = regRead s a)

/-- R142, R143: `MIX` and `IMIX`: words, effects, each output row the product of a matrix row of R140 or R141
with the old column, frame, and their places: rounds 1 to 9 of `ENC` only and of `DEC` only. -/
def Obligations.MixColumnsMicroOperations : Prop :=
  decodeM 0x70 = .ok .mix ∧ decodeM 0x80 = .ok .imix ∧
  (∀ d n, progInstr d n = some .mix ↔ d = .enc ∧ ∃ k, 1 ≤ k ∧ k ≤ 9 ∧ n = 9 + 4 * k) ∧
  (∀ d n, progInstr d n = some .imix ↔ d = .dec ∧ ∃ k, 1 ≤ k ∧ k ≤ 9 ∧ n = 50 - 4 * k) ∧ ∀ s : State,
    (∃ t, exec .mix s = .next t ∧
      (∀ (c : Nat) (hc : c < 4),
        t.st[c] = rowTimesColumn 2 3 1 1 s.st ⟨c, hc⟩ ∧ t.st[4 + c] = rowTimesColumn 1 2 3 1 s.st ⟨c, hc⟩ ∧
        t.st[8 + c] = rowTimesColumn 1 1 2 3 s.st ⟨c, hc⟩ ∧ t.st[12 + c] = rowTimesColumn 3 1 1 2 s.st ⟨c, hc⟩) ∧
      t.upc = s.upc + 1 ∧ t = { s with st := t.st, upc := t.upc } ∧ ∀ a, regRead t a = regRead s a) ∧
    (∃ t, exec .imix s = .next t ∧
      (∀ (c : Nat) (hc : c < 4),
        t.st[c] = rowTimesColumn 14 11 13 9 s.st ⟨c, hc⟩ ∧ t.st[4 + c] = rowTimesColumn 9 14 11 13 s.st ⟨c, hc⟩ ∧
        t.st[8 + c] = rowTimesColumn 13 9 14 11 s.st ⟨c, hc⟩ ∧
        t.st[12 + c] = rowTimesColumn 11 13 9 14 s.st ⟨c, hc⟩) ∧
      t.upc = s.upc + 1 ∧ t = { s with st := t.st, upc := t.upc } ∧ ∀ a, regRead t a = regRead s a)

/-- R186: `STO`: its word, its one place in both micro-programs, its effect, what it leaves alone. -/
def Obligations.StoreMicroOperation : Prop :=
  decodeM 0x90 = .ok .sto ∧ (∀ d n, progInstr d n = some .sto ↔ n = 50) ∧
  ∀ s : State, ∃ t, exec .sto s = .next t ∧
    (∀ (r c : Nat) (hr : r < 4) (hc : c < 4), t.dout[4 * c + r] = s.st[4 * r + c]) ∧
    t.busy = false ∧ t.done = true ∧ t.upc = 0 ∧
    t = { s with dout := t.dout, busy := t.busy, done := t.done, upc := t.upc } ∧
    ∀ a : Addr, (a.toNat < 0x20 ∨ 0x30 ≤ a.toNat) → a ≠ 0x31 → regRead t a = regRead s a

/-- R86, U1: a round index outside the legal range is given no meaning: the model stops by name. -/
def Obligations.IllegalRoundStops : Prop :=
  ∀ (s : State) (r : BitVec 4),
    (r.toNat = 0 ∨ 10 < r.toNat → exec (.kxr r) s = .fault .reservedMicroWord) ∧
    (10 < r.toNat → exec (.ark r) s = .fault .reservedMicroWord)

/-! ## The pure functions -/

/-- R101: the two tables are inverse permutations of the byte values. -/
def Obligations.SboxTablesAreInverse : Prop := ∀ b : Byte, invSbox (sbox b) = b ∧ sbox (invSbox b) = b

/-- R106: `sbox` is a permutation, not its own inverse but at two bytes, without fixed point; the corner cases. -/
def Obligations.SboxTableFacts : Prop :=
  Function.Bijective sbox ∧ Function.Bijective invSbox ∧ sbox 0x73 = 0x8F ∧ sbox 0x8F = 0x73 ∧
  sbox (sbox 0x00) = 0xFB ∧
  (∀ b : Byte, sbox (sbox b) = b ↔ b = 0x73 ∨ b = 0x8F) ∧
  (∀ b : Byte, sbox b ≠ b ∧ sbox b ≠ b ^^^ 0xFF) ∧
  sbox 0x00 = 0x63 ∧ sbox 0x01 = 0x7C ∧ sbox 0x53 = 0xED ∧ sbox 0xFF = 0x16 ∧
  invSbox 0x00 = 0x52 ∧ invSbox 0x63 = 0x00 ∧ invSbox 0xFF = 0x7D

/-- R107: the printed table is the one the construction (inverse in GF(2^8), then the affine map) gives.
The spec takes the construction from general knowledge (log entry 7). -/
def Obligations.SboxIsTheConstruction : Prop :=
  (∀ a : Byte, sbox a = sboxConstructed a) ∧
  (∀ a x : Byte, gmul a x = 0x01 → sbox a = sboxAffine x) ∧ sbox 0x00 = sboxAffine 0x00

/-- R112: the bytes with `^` and `gmul` satisfy the field laws; 0x02 has order 51. -/
def Obligations.GmulFieldLaws : Prop :=
  (∀ a b : Byte, gmul a b = gmul b a) ∧
  (∀ a b c : Byte, gmul a (gmul b c) = gmul (gmul a b) c) ∧
  (∀ a b c : Byte, gmul a (b ^^^ c) = gmul a b ^^^ gmul a c) ∧
  (∀ a : Byte, gmul a 0x01 = a ∧ gmul a 0x00 = 0x00 ∧ gmul 0x02 a = xtime a ∧ a ^^^ a = 0x00) ∧
  (∀ a : Byte, a ≠ 0x00 → ∃ x, gmul a x = 0x01 ∧ ∀ y, gmul a y = 0x01 → y = x) ∧
  (∀ n : Nat, n ≤ 51 → (xtimes n 0x01 = 0x01 ↔ n = 0 ∨ n = 51))

/-- R113 to R119: each constant multiplier is `gmul` by its constant, a permutation, and linear. -/
def Obligations.ConstantMultipliers : Prop :=
  (∀ b : Byte, mul2 b = gmul 0x02 b ∧ mul3 b = gmul 0x03 b ∧ mul9 b = gmul 0x09 b ∧
    mul11 b = gmul 0x0B b ∧ mul13 b = gmul 0x0D b ∧ mul14 b = gmul 0x0E b ∧ gmul 0x01 b = b) ∧
  (∀ f ∈ [mul2, mul3, mul9, mul11, mul13, mul14],
    f 0x00 = 0x00 ∧ (∀ a b : Byte, f (a ^^^ b) = f a ^^^ f b) ∧ Function.Bijective f)

/-- R134: the two rotations are inverse; four rotations are the identity, three the inverse; they commute
with any bytewise map. -/
def Obligations.ShiftRowsLaws : Prop :=
  ∀ S : Block, invShiftRows (shiftRows S) = S ∧ shiftRows (invShiftRows S) = S ∧
    shiftRows (shiftRows (shiftRows (shiftRows S))) = S ∧
    shiftRows (shiftRows (shiftRows S)) = invShiftRows S ∧
    ∀ f : Byte → Byte, shiftRows (S.map f) = (shiftRows S).map f ∧
      invShiftRows (S.map f) = (invShiftRows S).map f

/-- R144, R141: the two column maps are inverse and linear; four applications are the identity, three the
inverse. -/
def Obligations.MixColumnsLaws : Prop :=
  ∀ S : Block, invMixColumns (mixColumns S) = S ∧ mixColumns (invMixColumns S) = S ∧
    mixColumns (mixColumns (mixColumns (mixColumns S))) = S ∧
    mixColumns (mixColumns (mixColumns S)) = invMixColumns S ∧
    ∀ (A : Block), mixColumns (Vector.zipWith (fun x y => x ^^^ y) A S) =
        Vector.zipWith (fun x y => x ^^^ y) (mixColumns A) (mixColumns S) ∧
      invMixColumns (Vector.zipWith (fun x y => x ^^^ y) A S) =
        Vector.zipWith (fun x y => x ^^^ y) (invMixColumns A) (invMixColumns S)

/-- R165, R167, R170: `add_round_key` is the XOR with the transposed key, is its own inverse, and is a plain
XOR in the external ordering; `transpose` is its own inverse. -/
def Obligations.AddRoundKeyLaws : Prop :=
  ∀ S K : Block, transpose (transpose S) = S ∧
    addRoundKey S K = Vector.zipWith (fun x y => x ^^^ y) S (transpose K) ∧
    transpose (addRoundKey S K) = Vector.zipWith (fun x y => x ^^^ y) (transpose S) K ∧
    addRoundKey (addRoundKey S K) K = S ∧ addRoundKey S zeroBlock = S ∧
    mixColumns (addRoundKey S K) =
      Vector.zipWith (fun x y => x ^^^ y) (mixColumns S) (mixColumns (transpose K))

/-- R152: the round constants. -/
def Obligations.RoundConstants : Prop :=
  rcon 1 = 0x01 ∧ (∀ j, 1 ≤ j → rcon (j + 1) = xtime (rcon j)) ∧
  (List.range 10).map (fun j => rcon (j + 1)) = [0x01, 0x02, 0x04, 0x08, 0x10, 0x20, 0x40, 0x80, 0x1B, 0x36]

/-- R154: the 44 Words: the first four are the key, the others follow the recurrence. -/
def Obligations.ScheduleWordsRecurrence : Prop :=
  ∀ K : Block,
    (∀ (i k : Nat) (hi : i < 4) (hk : k < 4), (expandWords K)[i][k] = K[4 * i + k]) ∧
    (∀ (i : Nat) (h4 : 4 ≤ i) (h : i < 44),
      (expandWords K)[i] = xorWord (expandWords K)[i - 4] (scheduleT i (expandWords K)[i - 1]))

/-- R155, R156: repeated `next_round_key` gives the round keys that the 44 Words give, four Words each. -/
def Obligations.RoundKeysAreTheWords : Prop :=
  ∀ (K : Block) (r : Fin 11), (expandKey K)[r.val] = roundKeyOfWords K r ∧
    ∀ (j k : Nat) (hj : j < 4) (hk : k < 4), (expandKey K)[r.val][4 * j + k] = (expandWords K)[4 * r.val + j][k]

/-- R156, unrolled: the bytes of the next round key; and `expand_key` as its repetition. -/
def Obligations.NextRoundKeyBytes : Prop :=
  (∀ K : Block, (expandKey K)[0] = K ∧ ∀ (r : Nat) (h : r < 10),
    (expandKey K)[r + 1] = nextRoundKey (expandKey K)[r] (rcon (r + 1))) ∧
  ∀ (P : Block) (rc : Byte) (k : Nat) (hk : k < 4),
    (nextRoundKey P rc)[k] = P[k] ^^^ sbox P[12 + (k + 1) % 4] ^^^ (if k = 0 then rc else 0x00) ∧
    (nextRoundKey P rc)[4 + k] = P[4 + k] ^^^ (nextRoundKey P rc)[k] ∧
    (nextRoundKey P rc)[8 + k] = P[8 + k] ^^^ (nextRoundKey P rc)[4 + k] ∧
    (nextRoundKey P rc)[12 + k] = P[12 + k] ^^^ (nextRoundKey P rc)[8 + k]

/-- R189: decryption undoes encryption and encryption undoes decryption, for every block and key. -/
def Obligations.DecryptUndoesEncrypt : Prop :=
  ∀ B K : Block, decryptBlock (encryptBlock B K) K = B ∧ encryptBlock (decryptBlock B K) K = B

/-! ## The micro-program -/

/-- R179, R180: the two listings. That there is no word past position 50, where R175 does not define `uprog`, is
the model's choice (log entry 9). -/
def Obligations.MicroProgramListings : Prop :=
  (List.range 51).map (uprog .enc) = ([
    0x11, 0x12, 0x13, 0x14, 0x15, 0x16, 0x17, 0x18, 0x19, 0x1A, 0x20, 0x30, 0x50, 0x70, 0x21, 0x30, 0x50,
    0x70, 0x22, 0x30, 0x50, 0x70, 0x23, 0x30, 0x50, 0x70, 0x24, 0x30, 0x50, 0x70, 0x25, 0x30, 0x50, 0x70,
    0x26, 0x30, 0x50, 0x70, 0x27, 0x30, 0x50, 0x70, 0x28, 0x30, 0x50, 0x70, 0x29, 0x30, 0x50, 0x2A,
    0x90] : List MicroWord).map some ∧
  (List.range 51).map (uprog .dec) = ([
    0x11, 0x12, 0x13, 0x14, 0x15, 0x16, 0x17, 0x18, 0x19, 0x1A, 0x2A, 0x60, 0x40, 0x29, 0x80, 0x60, 0x40,
    0x28, 0x80, 0x60, 0x40, 0x27, 0x80, 0x60, 0x40, 0x26, 0x80, 0x60, 0x40, 0x25, 0x80, 0x60, 0x40, 0x24,
    0x80, 0x60, 0x40, 0x23, 0x80, 0x60, 0x40, 0x22, 0x80, 0x60, 0x40, 0x21, 0x80, 0x60, 0x40, 0x20,
    0x90] : List MicroWord).map some ∧
  (∀ d n, 50 < n → uprog d n = none)

/-- R26, R176: at every position of a round the round index is the `r` of the `ARK` word of that round, and it
belongs to the positions 10 to 49. A round of `ENC` ends with its `ARK`, the first at or after the position; a
round of `DEC` begins with it, the last at or before the position. -/
def Obligations.RoundIndexIsTheArkOperand : Prop :=
  (∀ d n, (roundIndex d n).isSome = true ↔ 10 ≤ n ∧ n ≤ 49) ∧
  (∀ n, 10 ≤ n → n ≤ 49 → ∃ m r, n ≤ m ∧ progInstr .enc m = some (.ark r) ∧
    (∀ k, n ≤ k → k < m → ∀ q, progInstr .enc k ≠ some (.ark q)) ∧ roundIndex .enc n = some r.toNat) ∧
  (∀ n, 10 ≤ n → n ≤ 49 → ∃ m r, m ≤ n ∧ progInstr .dec m = some (.ark r) ∧
    (∀ k, m < k → k ≤ n → ∀ q, progInstr .dec k ≠ some (.ark q)) ∧ roundIndex .dec n = some r.toNat)

/-! ## Rules of the whole machine -/

/-- R23: only `STO` writes `DOUT` (and reset): in any other turn `DOUT` keeps its value. -/
def Obligations.OnlyStoWritesDout : Prop :=
  ∀ (s t : State) (e : Event), e ≠ .reset → turn e s = .next t →
    ¬ (e = .core ∧ s.busy = true ∧ s.upc = 50) → t.dout = s.dout

/-- R21, R22: CORE never writes `KEY` or `DIN`, nor (R29, R32) `DIR`, `ERR`, `ECODE`; nor the model's own field
`hostReads` (log entry 4). -/
def Obligations.CoreNeverWritesHostRegisters : Prop :=
  ∀ s t : State, turn .core s = .next t →
    t.key = s.key ∧ t.din = s.din ∧ t.dir = s.dir ∧ t.err = s.err ∧ t.ecode = s.ecode ∧
      t.hostReads = s.hostReads

/-- R52, R37: a host access that is not an accepted command leaves the hidden elements alone, and what any
host access does to the visible elements and returns (`hostReads`, log entry 4) does not depend on them. -/
def Obligations.HiddenStateIsOutOfReach : Prop :=
  (∀ (s t : State) (w : BusWord), turn (.access w) s = .next t →
    ¬ (s.busy = false ∧ (w = commandWord .enc ∨ w = commandWord .dec)) → SameHidden s t) ∧
  (∀ (s₁ s₂ : State) (w : BusWord), SameVisible s₁ s₂ → s₁.hostReads = s₂.hostReads →
    ∃ t₁ t₂, turn (.access w) s₁ = .next t₁ ∧ turn (.access w) s₂ = .next t₂ ∧ SameVisible t₁ t₂ ∧
      t₁.hostReads = t₂.hostReads)

/-- R32: `ERR` and `ECODE` affect no other rule: two states that differ only there (and in what HOST has
read of them, `hostReads`, log entry 4) go on differing only there, or stop alike. -/
def Obligations.ErrorFlagsAffectNothingElse : Prop :=
  ∀ (s₁ s₂ : State), SameButErrors s₁ s₂ →
    (∀ t₁, step s₁ = .next t₁ → ∃ t₂, step s₂ = .next t₂ ∧ SameButErrors t₁ t₂) ∧
    (∀ f, step s₁ = .fault f → step s₂ = .fault f)

/-- R32, R201, R244: once `ERR` is set, no turn but reset clears it or changes `ECODE`; an `ERR` not yet set
is set only by an access. -/
def Obligations.ErrorIsSticky : Prop :=
  ∀ (s t : State) (e : Event), e ≠ .reset → turn e s = .next t →
    (s.err = true → t.err = true ∧ t.ecode = s.ecode) ∧
    (s.err = false → t.err = true → ∃ w, e = .access w)

/-- R181, R246: the sequencer's state after a turn is a function of its state before and of the turn alone:
no data value influences it. -/
def Obligations.SequenceIsIndependentOfData : Prop :=
  ∀ (s₁ s₂ t₁ t₂ : State) (e : Event), s₁.busy = s₂.busy → s₁.upc = s₂.upc → s₁.dir = s₂.dir →
    turn e s₁ = .next t₁ → turn e s₂ = .next t₂ → t₁.busy = t₂.busy ∧ t₁.upc = t₂.upc ∧ t₁.dir = t₂.dir

/-- R173, R21, R22: after acceptance `KEY` and `DIN` are not read again: CORE's turn from two states that
differ only there leads to states that differ only there. -/
def Obligations.OperandsAreNotReadWhileBusy : Prop :=
  ∀ (s₁ s₂ t₁ : State), SameButOperands s₁ s₂ → turn .core s₁ = .next t₁ →
    ∃ t₂, turn .core s₂ = .next t₂ ∧ SameButOperands t₁ t₂ ∧ t₂.key = s₂.key ∧ t₂.din = s₂.din

/-- R27, R28, R66 (d), R231: but for a reset, `BUSY` is cleared and `DONE` is set only by `STO`, both at once, and
`BUSY` is set and `DONE` is cleared only by the acceptance of a command by an idle core, both at once: a command
accepted is running or done until reset. -/
def Obligations.AcceptedCommandIsBusyOrDone : Prop :=
  ∀ (s t : State) (e : Event), e ≠ .reset → turn e s = .next t →
    (s.busy = true → t.busy = true ∧ t.done = s.done ∨ e = .core ∧ s.upc = 50 ∧ t.busy = false ∧ t.done = true) ∧
    (s.busy = false → t.busy = false ∧ t.done = s.done ∨
      t.busy = true ∧ t.done = false ∧ ∃ d, e = .access (commandWord d))

/-- R231: a cycle in which `rst` is sampled is a reset, whatever access and CORE step it also presents. (A cycle
as a list of turns is log entry 14.) -/
def Obligations.ResetWins : Prop :=
  ∀ (s : State) (p : BusPins), p.rst = true → ∃ t, drive (cycleEvents p s) s = .next t ∧ SameCore t State.reset

/-- R208, R250: in the clocked view a command presented in the very cycle of `STO` is `E_BUSY`, and the
operation completes. (A cycle as a list of turns is log entry 14.) -/
def Obligations.CommandInTheStoCycleIsBusy : Prop :=
  ∀ (s : State) (p : BusPins) (d : Direction), p.rst = false → p.sel = true → pinsWord p = commandWord d →
    s.busy = true → s.upc = 50 → s.err = false →
    ∃ t, drive (cycleEvents p s) s = .next t ∧ t.err = true ∧ t.ecode = 2 ∧ t.busy = false ∧ t.done = true ∧
      t.dout = transpose s.st

/-! ## What an operation computes -/

/-- R187: an accepted command, then any interleaving of 50 CORE turns with host accesses, then the 51st CORE
turn: `DOUT` is the block function of the operands at acceptance; every element of R20 is as R187 says. -/
def Obligations.OperationComputesTheBlockFunction : Prop :=
  ∀ (s : State) (d : Direction) (es : List Event), s.busy = false → .reset ∉ es → es.count .core = 50 →
    ∃ t, drive (.access (commandWord d) :: es ++ [.core]) s = .next t ∧
      t.dout = blockFunction d s.din s.key ∧ t.busy = false ∧ t.done = true ∧ t.dir = d ∧ t.upc = 0 ∧
      t.rk = expandKey s.key ∧ t.rc = 0x6C ∧ t.st = transpose t.dout ∧
      (∀ (i : Nat) (h : i < 16), t.key[i] = lastWritten (BitVec.ofNat 6 i) s.key[i] es ∧
        t.din[i] = lastWritten (BitVec.ofNat 6 (0x10 + i)) s.din[i] es) ∧
      t.err = (s.err || (firstError es).isSome) ∧
      t.ecode = if s.err then s.ecode else ((firstError es).map ErrorCause.code).getD s.ecode

/-- R174, R187 (last sentence): until its 51st CORE turn an accepted command stays busy, `DOUT` keeps its old
value and `UPC` counts the CORE turns, whatever the host does. -/
def Obligations.OperationRunsForFiftyOneCoreTurns : Prop :=
  ∀ (s : State) (d : Direction) (es : List Event), s.busy = false → .reset ∉ es → es.count .core ≤ 50 →
    ∃ t, drive (.access (commandWord d) :: es) s = .next t ∧ t.busy = true ∧ t.done = false ∧ t.dir = d ∧
      t.dout = s.dout ∧ t.upc.toNat = es.count .core

/-- R188: the result depends on `dir` and on `DIN` and `KEY` at acceptance only: not on any other element, nor
on what the host does meanwhile. -/
def Obligations.OperationIsStateless : Prop :=
  ∀ (s₁ s₂ : State) (d : Direction) (es₁ es₂ : List Event), s₁.busy = false → s₂.busy = false →
    s₁.din = s₂.din → s₁.key = s₂.key → .reset ∉ es₁ → .reset ∉ es₂ → es₁.count .core = 50 →
    es₂.count .core = 50 →
    ∃ t₁ t₂, drive (.access (commandWord d) :: es₁ ++ [.core]) s₁ = .next t₁ ∧
      drive (.access (commandWord d) :: es₂ ++ [.core]) s₂ = .next t₂ ∧ t₁.dout = t₂.dout

/-- R89, R233: the pseudo-instructions `ENCRYPT` and `DECRYPT`, run on an idle core with a poll that finds
`DONE`, return the block function of their operands to the host. What the host receives stands in the model's
own field `hostReads` (log entry 4). -/
def Obligations.EncryptAndDecryptReturnTheBlock : Prop :=
  ∀ (s : State) (k b : Block), s.busy = false →
    (∃ t v, drive (hostEvents (encryptStart k b) ++ List.replicate 51 .core ++ hostEvents (.rd 0x31 :: rdblk)) s
        = .next t ∧ waitOver v = true ∧ t.hostReads = s.hostReads ++ v :: (encryptBlock b k).toList) ∧
    (∃ t v, drive (hostEvents (decryptStart k b) ++ List.replicate 51 .core ++ hostEvents (.rd 0x31 :: rdblk)) s
        = .next t ∧ waitOver v = true ∧ t.hostReads = s.hostReads ++ v :: (decryptBlock b k).toList)

/-- R189 (last sentence): `ENC`, then `DOUT` copied to `DIN` with the same `KEY`, then `DEC`, leaves `DOUT` equal
to the original `DIN`. -/
def Obligations.EncThenDecRestoresTheBlock : Prop :=
  ∀ (s t : State), s.busy = false →
    drive (.access (commandWord .enc) :: List.replicate 51 .core) s = .next t →
    ∃ u, drive (hostEvents (ldblk t.dout) ++ .access (commandWord .dec) :: List.replicate 51 .core) t = .next u ∧
      u.dout = s.din
end

