-- ==== Sys2Proof/Laws/Encoding.lean ====
section
/-! SUPPORT. The fields of a word, and the decoder on encoded words. -/

namespace Sys2Proof

theorem busWord_getLsbD (we : BitVec 1) (a : Addr) (v : Byte) (i : Nat) :
    (busWord we a v).getLsbD i =
      if i < 8 then v.getLsbD i else if i < 14 then a.getLsbD (i - 8) else we.getLsbD (i - 14) := by
  have h : (busWord we a v).getLsbD i = ((we ++ a) ++ v : BitVec (1 + 6 + 8)).getLsbD i := rfl
  rw [h, BitVec.getLsbD_append, BitVec.getLsbD_append]
  have h1 : i - 8 < 6 ↔ i < 14 := by omega
  have h2 : i - 8 - 6 = i - 14 := by omega
  simp only [h1, h2]

theorem microWord_getLsbD (op r : BitVec 4) (i : Nat) :
    (microWord op r).getLsbD i = if i < 4 then r.getLsbD i else op.getLsbD (i - 4) := by
  have h : (microWord op r).getLsbD i = (op ++ r : BitVec (4 + 4)).getLsbD i := rfl
  rw [h, BitVec.getLsbD_append]

@[simp] theorem busWe_busWord (we : BitVec 1) (a : Addr) (v : Byte) :
    busWe (busWord we a v) = we.getLsbD 0 := by
  simp only [busWe, busWord_getLsbD]; rfl

@[simp] theorem busAddr_busWord (we : BitVec 1) (a : Addr) (v : Byte) : busAddr (busWord we a v) = a := by
  apply BitVec.eq_of_getLsbD_eq
  intro i hi
  have h1 : ¬ 8 + i < 8 := by omega
  have h2 : 8 + i < 14 := by omega
  have h3 : 8 + i - 8 = i := by omega
  simp only [busAddr, BitVec.getLsbD_extractLsb', busWord_getLsbD, h1, h2, h3, hi, decide_true, Bool.true_and,
    if_true, if_false]

@[simp] theorem busData_busWord (we : BitVec 1) (a : Addr) (v : Byte) : busData (busWord we a v) = v := by
  apply BitVec.eq_of_getLsbD_eq
  intro i hi
  simp only [busData, BitVec.getLsbD_extractLsb', busWord_getLsbD, hi, Nat.zero_add, decide_true, Bool.true_and,
    if_true]

/-- A format-B word is its three fields. -/
theorem busWord_fields (w : BusWord) : busWord (BitVec.ofBool (busWe w)) (busAddr w) (busData w) = w := by
  apply BitVec.eq_of_getLsbD_eq
  intro i hi
  simp only [busData, busAddr, busWe, busWord_getLsbD, BitVec.getLsbD_extractLsb']
  split
  · simp_all
  · split
    · have h1 : 8 + (i - 8) = i := by omega
      have h2 : i - 8 < 6 := by omega
      simp [h1, h2]
    · have h1 : i = 14 := by omega
      subst h1; simp

@[simp] theorem microOp_microWord (op r : BitVec 4) : microOp (microWord op r) = op := by
  apply BitVec.eq_of_getLsbD_eq
  intro i hi
  have h1 : ¬ 4 + i < 4 := by omega
  have h3 : 4 + i - 4 = i := by omega
  simp only [microOp, BitVec.getLsbD_extractLsb', microWord_getLsbD, h1, h3, hi, decide_true, Bool.true_and,
    if_false]

@[simp] theorem microRound_microWord (op r : BitVec 4) : microRound (microWord op r) = r := by
  apply BitVec.eq_of_getLsbD_eq
  intro i hi
  simp only [microRound, BitVec.getLsbD_extractLsb', microWord_getLsbD, hi, Nat.zero_add, decide_true,
    Bool.true_and, if_true]

/-- A format-M word is its two fields. -/
theorem microWord_fields (w : MicroWord) : microWord (microOp w) (microRound w) = w := by
  apply BitVec.eq_of_getLsbD_eq
  intro i hi
  simp only [microOp, microRound, microWord_getLsbD, BitVec.getLsbD_extractLsb']
  split
  · simp_all
  · have h1 : 4 + (i - 4) = i := by omega
    have h2 : i - 4 < 4 := by omega
    simp [h1, h2]

/-- A format-B word determines its fields. -/
theorem busWord_inj {we we' : BitVec 1} {a a' : Addr} {v v' : Byte} (h : busWord we a v = busWord we' a' v') :
    we = we' ∧ a = a' ∧ v = v' := by
  refine ⟨?_, by simpa using congrArg busAddr h, by simpa using congrArg busData h⟩
  have h1 := congrArg busWe h
  rw [busWe_busWord, busWe_busWord] at h1
  apply BitVec.eq_of_getLsbD_eq
  intro i hi
  have h2 : i = 0 := by omega
  rw [h2]; exact h1

theorem encWord_fields : (0x7001#15 : BusWord) = busWord 1 0x30 0x01 := by decide

theorem decWord_fields : (0x7002#15 : BusWord) = busWord 1 0x30 0x02 := by decide

/-- The word of a write that is no command decodes to that write. -/
theorem decodeB_wr (a : Addr) (v : Byte) (h : Instr.isCommand a v = false) :
    decodeB (busWord 1 a v) = .wr a v := by
  have h1 : busWord 1 a v ≠ 0x7001#15 := by
    intro hc
    obtain ⟨-, rfl, rfl⟩ := busWord_inj (hc.trans encWord_fields)
    exact absurd h (by decide)
  have h2 : busWord 1 a v ≠ 0x7002#15 := by
    intro hc
    obtain ⟨-, rfl, rfl⟩ := busWord_inj (hc.trans decWord_fields)
    exact absurd h (by decide)
  rw [decodeB, if_neg h1, if_neg h2, busWe_busWord, busAddr_busWord, busData_busWord]
  rfl

/-- The word of a read decodes to that read, whatever its `wdata`. -/
theorem decodeB_rd (a : Addr) (v : Byte) : decodeB (busWord 0 a v) = .rd a := by
  have h1 : busWord 0 a v ≠ 0x7001#15 := fun hc =>
    absurd (busWord_inj (hc.trans encWord_fields)).1 (by decide)
  have h2 : busWord 0 a v ≠ 0x7002#15 := fun hc =>
    absurd (busWord_inj (hc.trans decWord_fields)).1 (by decide)
  rw [decodeB, if_neg h1, if_neg h2, busWe_busWord, busAddr_busWord]
  rfl

@[simp] theorem decodeB_enc : decodeB 0x7001#15 = .enc := by decide

@[simp] theorem decodeB_dec : decodeB 0x7002#15 = .dec := by decide

end Sys2Proof
end

