-- ==== Sys2Proof/Laws/State.lean ====
section
/-! SUPPORT. One lemma per field and per shared update of the state, so that no proof unfolds a record
update. -/

namespace Sys2Proof.Machine

section flagError

variable (c : ErrorCause) (s : State)

@[simp] theorem flagError_key : (flagError c s).key = s.key := by
  unfold flagError; split <;> rfl
@[simp] theorem flagError_din : (flagError c s).din = s.din := by
  unfold flagError; split <;> rfl
@[simp] theorem flagError_dout : (flagError c s).dout = s.dout := by
  unfold flagError; split <;> rfl
@[simp] theorem flagError_st : (flagError c s).st = s.st := by
  unfold flagError; split <;> rfl
@[simp] theorem flagError_rk : (flagError c s).rk = s.rk := by
  unfold flagError; split <;> rfl
@[simp] theorem flagError_rc : (flagError c s).rc = s.rc := by
  unfold flagError; split <;> rfl
@[simp] theorem flagError_upc : (flagError c s).upc = s.upc := by
  unfold flagError; split <;> rfl
@[simp] theorem flagError_busy : (flagError c s).busy = s.busy := by
  unfold flagError; split <;> rfl
@[simp] theorem flagError_done : (flagError c s).done = s.done := by
  unfold flagError; split <;> rfl
@[simp] theorem flagError_dir : (flagError c s).dir = s.dir := by
  unfold flagError; split <;> rfl
@[simp] theorem flagError_err : (flagError c s).err = true := by
  cases h : s.err <;> simp [flagError, h]
@[simp] theorem flagError_ecode : (flagError c s).ecode = if s.err then s.ecode else c.code := by
  cases h : s.err <;> simp [flagError, h]
@[simp] theorem flagError_schedule : (flagError c s).schedule = s.schedule := by
  unfold flagError; split <;> rfl
@[simp] theorem flagError_hostReads : (flagError c s).hostReads = s.hostReads := by
  unfold flagError; split <;> rfl

end flagError

section acceptCommand

variable (d : Direction) (s : State)

@[simp] theorem acceptCommand_key : (acceptCommand d s).key = s.key := rfl
@[simp] theorem acceptCommand_din : (acceptCommand d s).din = s.din := rfl
@[simp] theorem acceptCommand_dout : (acceptCommand d s).dout = s.dout := rfl
@[simp] theorem acceptCommand_st : (acceptCommand d s).st = transpose s.din := rfl
@[simp] theorem acceptCommand_rk : (acceptCommand d s).rk = s.rk.set 0 s.key := rfl
@[simp] theorem acceptCommand_rc : (acceptCommand d s).rc = 0x01 := rfl
@[simp] theorem acceptCommand_upc : (acceptCommand d s).upc = 0 := rfl
@[simp] theorem acceptCommand_busy : (acceptCommand d s).busy = true := rfl
@[simp] theorem acceptCommand_done : (acceptCommand d s).done = false := rfl
@[simp] theorem acceptCommand_dir : (acceptCommand d s).dir = d := rfl
@[simp] theorem acceptCommand_err : (acceptCommand d s).err = s.err := rfl
@[simp] theorem acceptCommand_ecode : (acceptCommand d s).ecode = s.ecode := rfl
@[simp] theorem acceptCommand_schedule : (acceptCommand d s).schedule = s.schedule := rfl
@[simp] theorem acceptCommand_hostReads : (acceptCommand d s).hostReads = s.hostReads := rfl

end acceptCommand

section updateSt

variable (f : Block → Block) (s : State)

@[simp] theorem updateSt_key : (updateSt f s).key = s.key := rfl
@[simp] theorem updateSt_din : (updateSt f s).din = s.din := rfl
@[simp] theorem updateSt_dout : (updateSt f s).dout = s.dout := rfl
@[simp] theorem updateSt_st : (updateSt f s).st = f s.st := rfl
@[simp] theorem updateSt_rk : (updateSt f s).rk = s.rk := rfl
@[simp] theorem updateSt_rc : (updateSt f s).rc = s.rc := rfl
@[simp] theorem updateSt_upc : (updateSt f s).upc = s.upc + 1 := rfl
@[simp] theorem updateSt_busy : (updateSt f s).busy = s.busy := rfl
@[simp] theorem updateSt_done : (updateSt f s).done = s.done := rfl
@[simp] theorem updateSt_dir : (updateSt f s).dir = s.dir := rfl
@[simp] theorem updateSt_err : (updateSt f s).err = s.err := rfl
@[simp] theorem updateSt_ecode : (updateSt f s).ecode = s.ecode := rfl
@[simp] theorem updateSt_schedule : (updateSt f s).schedule = s.schedule := rfl
@[simp] theorem updateSt_hostReads : (updateSt f s).hostReads = s.hostReads := rfl

end updateSt

section expandRound

variable (r : Nat) (h : r < 11) (s : State)

@[simp] theorem expandRound_key : (expandRound r h s).key = s.key := rfl
@[simp] theorem expandRound_din : (expandRound r h s).din = s.din := rfl
@[simp] theorem expandRound_dout : (expandRound r h s).dout = s.dout := rfl
@[simp] theorem expandRound_st : (expandRound r h s).st = s.st := rfl
@[simp] theorem expandRound_rk : (expandRound r h s).rk = s.rk.set r (nextRoundKey s.rk[r - 1] s.rc) := rfl
@[simp] theorem expandRound_rc : (expandRound r h s).rc = xtime s.rc := rfl
@[simp] theorem expandRound_upc : (expandRound r h s).upc = s.upc + 1 := rfl
@[simp] theorem expandRound_busy : (expandRound r h s).busy = s.busy := rfl
@[simp] theorem expandRound_done : (expandRound r h s).done = s.done := rfl
@[simp] theorem expandRound_dir : (expandRound r h s).dir = s.dir := rfl
@[simp] theorem expandRound_err : (expandRound r h s).err = s.err := rfl
@[simp] theorem expandRound_ecode : (expandRound r h s).ecode = s.ecode := rfl
@[simp] theorem expandRound_schedule : (expandRound r h s).schedule = s.schedule := rfl
@[simp] theorem expandRound_hostReads : (expandRound r h s).hostReads = s.hostReads := rfl

end expandRound

section storeResult

variable (s : State)

@[simp] theorem storeResult_key : (storeResult s).key = s.key := rfl
@[simp] theorem storeResult_din : (storeResult s).din = s.din := rfl
@[simp] theorem storeResult_dout : (storeResult s).dout = transpose s.st := rfl
@[simp] theorem storeResult_st : (storeResult s).st = s.st := rfl
@[simp] theorem storeResult_rk : (storeResult s).rk = s.rk := rfl
@[simp] theorem storeResult_rc : (storeResult s).rc = s.rc := rfl
@[simp] theorem storeResult_upc : (storeResult s).upc = 0 := rfl
@[simp] theorem storeResult_busy : (storeResult s).busy = false := rfl
@[simp] theorem storeResult_done : (storeResult s).done = true := rfl
@[simp] theorem storeResult_dir : (storeResult s).dir = s.dir := rfl
@[simp] theorem storeResult_err : (storeResult s).err = s.err := rfl
@[simp] theorem storeResult_ecode : (storeResult s).ecode = s.ecode := rfl
@[simp] theorem storeResult_schedule : (storeResult s).schedule = s.schedule := rfl
@[simp] theorem storeResult_hostReads : (storeResult s).hostReads = s.hostReads := rfl

end storeResult

section deliver

variable (v : Byte) (s : State)

@[simp] theorem deliver_key : (deliver v s).key = s.key := rfl
@[simp] theorem deliver_din : (deliver v s).din = s.din := rfl
@[simp] theorem deliver_dout : (deliver v s).dout = s.dout := rfl
@[simp] theorem deliver_st : (deliver v s).st = s.st := rfl
@[simp] theorem deliver_rk : (deliver v s).rk = s.rk := rfl
@[simp] theorem deliver_rc : (deliver v s).rc = s.rc := rfl
@[simp] theorem deliver_upc : (deliver v s).upc = s.upc := rfl
@[simp] theorem deliver_busy : (deliver v s).busy = s.busy := rfl
@[simp] theorem deliver_done : (deliver v s).done = s.done := rfl
@[simp] theorem deliver_dir : (deliver v s).dir = s.dir := rfl
@[simp] theorem deliver_err : (deliver v s).err = s.err := rfl
@[simp] theorem deliver_ecode : (deliver v s).ecode = s.ecode := rfl
@[simp] theorem deliver_schedule : (deliver v s).schedule = s.schedule := rfl
@[simp] theorem deliver_hostReads : (deliver v s).hostReads = s.hostReads ++ [v] := rfl

end deliver

section reschedule

variable (es : List Event) (s : State)

@[simp] theorem reschedule_key : (reschedule es s).key = s.key := rfl
@[simp] theorem reschedule_din : (reschedule es s).din = s.din := rfl
@[simp] theorem reschedule_dout : (reschedule es s).dout = s.dout := rfl
@[simp] theorem reschedule_st : (reschedule es s).st = s.st := rfl
@[simp] theorem reschedule_rk : (reschedule es s).rk = s.rk := rfl
@[simp] theorem reschedule_rc : (reschedule es s).rc = s.rc := rfl
@[simp] theorem reschedule_upc : (reschedule es s).upc = s.upc := rfl
@[simp] theorem reschedule_busy : (reschedule es s).busy = s.busy := rfl
@[simp] theorem reschedule_done : (reschedule es s).done = s.done := rfl
@[simp] theorem reschedule_dir : (reschedule es s).dir = s.dir := rfl
@[simp] theorem reschedule_err : (reschedule es s).err = s.err := rfl
@[simp] theorem reschedule_ecode : (reschedule es s).ecode = s.ecode := rfl
@[simp] theorem reschedule_schedule : (reschedule es s).schedule = es := rfl
@[simp] theorem reschedule_hostReads : (reschedule es s).hostReads = s.hostReads := rfl

@[simp] theorem reschedule_reschedule (fs : List Event) : reschedule es (reschedule fs s) = reschedule es s := rfl

@[simp] theorem reschedule_self : reschedule s.schedule s = s := rfl

end reschedule

section dropEvent

variable (s : State)

@[simp] theorem dropEvent_key : (dropEvent s).key = s.key := rfl
@[simp] theorem dropEvent_din : (dropEvent s).din = s.din := rfl
@[simp] theorem dropEvent_dout : (dropEvent s).dout = s.dout := rfl
@[simp] theorem dropEvent_st : (dropEvent s).st = s.st := rfl
@[simp] theorem dropEvent_rk : (dropEvent s).rk = s.rk := rfl
@[simp] theorem dropEvent_rc : (dropEvent s).rc = s.rc := rfl
@[simp] theorem dropEvent_upc : (dropEvent s).upc = s.upc := rfl
@[simp] theorem dropEvent_busy : (dropEvent s).busy = s.busy := rfl
@[simp] theorem dropEvent_done : (dropEvent s).done = s.done := rfl
@[simp] theorem dropEvent_dir : (dropEvent s).dir = s.dir := rfl
@[simp] theorem dropEvent_err : (dropEvent s).err = s.err := rfl
@[simp] theorem dropEvent_ecode : (dropEvent s).ecode = s.ecode := rfl
@[simp] theorem dropEvent_schedule : (dropEvent s).schedule = s.schedule.tail := rfl
@[simp] theorem dropEvent_hostReads : (dropEvent s).hostReads = s.hostReads := rfl

end dropEvent

section atPosition

variable (d : Direction) (n : BitVec 6) (s : State)

@[simp] theorem atPosition_key : (atPosition d n s).key = s.key := rfl
@[simp] theorem atPosition_din : (atPosition d n s).din = s.din := rfl
@[simp] theorem atPosition_dout : (atPosition d n s).dout = s.dout := rfl
@[simp] theorem atPosition_st : (atPosition d n s).st = s.st := rfl
@[simp] theorem atPosition_rk : (atPosition d n s).rk = s.rk := rfl
@[simp] theorem atPosition_rc : (atPosition d n s).rc = s.rc := rfl
@[simp] theorem atPosition_upc : (atPosition d n s).upc = n := rfl
@[simp] theorem atPosition_busy : (atPosition d n s).busy = true := rfl
@[simp] theorem atPosition_done : (atPosition d n s).done = s.done := rfl
@[simp] theorem atPosition_dir : (atPosition d n s).dir = d := rfl
@[simp] theorem atPosition_err : (atPosition d n s).err = s.err := rfl
@[simp] theorem atPosition_ecode : (atPosition d n s).ecode = s.ecode := rfl
@[simp] theorem atPosition_schedule : (atPosition d n s).schedule = .core :: s.schedule := rfl
@[simp] theorem atPosition_hostReads : (atPosition d n s).hostReads = s.hostReads := rfl

end atPosition

section applyReset

variable (s : State)

@[simp] theorem applyReset_key : (applyReset s).key = zeroBlock := rfl
@[simp] theorem applyReset_din : (applyReset s).din = zeroBlock := rfl
@[simp] theorem applyReset_dout : (applyReset s).dout = zeroBlock := rfl
@[simp] theorem applyReset_st : (applyReset s).st = zeroBlock := rfl
@[simp] theorem applyReset_rk : (applyReset s).rk = Vector.replicate 11 zeroBlock := rfl
@[simp] theorem applyReset_rc : (applyReset s).rc = 0x00 := rfl
@[simp] theorem applyReset_upc : (applyReset s).upc = 0 := rfl
@[simp] theorem applyReset_busy : (applyReset s).busy = false := rfl
@[simp] theorem applyReset_done : (applyReset s).done = false := rfl
@[simp] theorem applyReset_dir : (applyReset s).dir = .enc := rfl
@[simp] theorem applyReset_err : (applyReset s).err = false := rfl
@[simp] theorem applyReset_ecode : (applyReset s).ecode = 0 := rfl
@[simp] theorem applyReset_schedule : (applyReset s).schedule = s.schedule := rfl
@[simp] theorem applyReset_hostReads : (applyReset s).hostReads = s.hostReads := rfl

end applyReset

/-- Recording an error as one record update. -/
theorem flagError_eq (c : ErrorCause) (s : State) :
    flagError c s = { s with err := true, ecode := if s.err then s.ecode else c.code } := by
  cases s with
  | mk key din dout st rk rc upc busy done dir err ecode schedule hostReads =>
    cases err <;> simp [flagError]

end Sys2Proof.Machine
end

