-- ==== Sys2Proof/Laws/Ops.lean ====
section
/-! SUPPORT. What each shared operation and each meaning can do, said once. -/

namespace Sys2Proof.Machine

/-! ### The register map -/

theorem region_key (i : Nat) (h : i < 16) : region (BitVec.ofNat 6 i) = .key ⟨i, h⟩ := by
  have : (BitVec.ofNat 6 i).toNat = i := by simp; omega
  simp [region, this, h]

theorem region_din (i : Nat) (h : i < 16) : region (BitVec.ofNat 6 (0x10 + i)) = .din ⟨i, h⟩ := by
  have ha : (BitVec.ofNat 6 (0x10 + i)).toNat = 0x10 + i := by simp; omega
  have h1 : 0x10 + i < 0x20 := by omega
  simp [region, ha, h1]

theorem region_dout (i : Nat) (h : i < 16) : region (BitVec.ofNat 6 (0x20 + i)) = .dout ⟨i, h⟩ := by
  have ha : (BitVec.ofNat 6 (0x20 + i)).toNat = 0x20 + i := by simp; omega
  have h0 : ¬ 0x20 + i < 0x10 := by omega
  have h1 : 0x20 + i < 0x30 := by omega
  simp [region, ha, h0, h1]

@[simp] theorem region_ctrl : region 0x30#6 = .ctrl := by decide

@[simp] theorem region_status : region 0x31#6 = .status := by decide

theorem region_reserved (a : Addr) (h : 0x32 ≤ a.toNat) : region a = .reserved := by
  revert a; decide

/-- Which addresses name a byte of `KEY`. -/
theorem region_eq_key (a : Addr) (i : Fin 16) : region a = .key i ↔ a = BitVec.ofNat 6 i.val := by
  revert a i; decide

/-- Which addresses name a byte of `DIN`. -/
theorem region_eq_din (a : Addr) (i : Fin 16) : region a = .din i ↔ a = BitVec.ofNat 6 (0x10 + i.val) := by
  revert a i; decide

/-- Only 0x30 is `CTRL`. -/
theorem region_eq_ctrl (a : Addr) : region a = .ctrl ↔ a = 0x30#6 := by revert a; decide

/-! ### The meanings as one equation each -/

@[simp] theorem exec_rd (a : Addr) (s : State) : exec (.rd a) s = .next (deliver (regRead s a) s) := rfl
@[simp] theorem exec_wr (a : Addr) (v : Byte) (s : State) : exec (.wr a v) s = .next (regWrite a v s) := rfl
@[simp] theorem exec_enc (s : State) : exec .enc s = .next (hostCommand .enc s) := rfl
@[simp] theorem exec_dec (s : State) : exec .dec s = .next (hostCommand .dec s) := rfl
@[simp] theorem exec_sub (s : State) : exec .sub s = .next (updateSt subBytes s) := rfl
@[simp] theorem exec_isub (s : State) : exec .isub s = .next (updateSt invSubBytes s) := rfl
@[simp] theorem exec_shr (s : State) : exec .shr s = .next (updateSt shiftRows s) := rfl
@[simp] theorem exec_ishr (s : State) : exec .ishr s = .next (updateSt invShiftRows s) := rfl
@[simp] theorem exec_mix (s : State) : exec .mix s = .next (updateSt mixColumns s) := rfl
@[simp] theorem exec_imix (s : State) : exec .imix s = .next (updateSt invMixColumns s) := rfl
@[simp] theorem exec_sto (s : State) : exec .sto s = .next (storeResult s) := rfl

theorem exec_kxr (r : BitVec 4) (s : State) (h1 : 1 ≤ r.toNat) (h10 : r.toNat ≤ 10) :
    exec (.kxr r) s = .next (expandRound r.toNat (by omega) s) := by
  simp [exec, execKxr, h1, h10]

theorem exec_ark (r : BitVec 4) (s : State) (h : r.toNat ≤ 10) :
    exec (.ark r) s = .next (updateSt (fun S => addRoundKey S s.rk[r.toNat]) s) := by
  simp [exec, execArk, h]

/-! ### Commands and writes -/

theorem hostCommand_busy (d : Direction) (s : State) (h : s.busy = true) :
    hostCommand d s = flagError .busy s := by simp [hostCommand, h]

theorem hostCommand_idle (d : Direction) (s : State) (h : s.busy = false) :
    hostCommand d s = acceptCommand d s := by simp [hostCommand, h]

/-- Everything a write can do: store one byte of `KEY` or `DIN`, record an error, or have an idle core
accept a command. -/
theorem regWrite_cases (a : Addr) (v : Byte) (s : State) :
    (∃ i : Fin 16, region a = .key i ∧ regWrite a v s = { s with key := s.key.set i.val v }) ∨
    (∃ i : Fin 16, region a = .din i ∧ regWrite a v s = { s with din := s.din.set i.val v }) ∨
    (∃ c, regWrite a v s = flagError c s) ∨
    (s.busy = false ∧ ∃ d, regWrite a v s = acceptCommand d s) := by
  cases hr : region a with
  | key i => exact .inl ⟨i, rfl, by simp [regWrite, hr]⟩
  | din i => exact .inr (.inl ⟨i, rfl, by simp [regWrite, hr]⟩)
  | dout i => exact .inr (.inr (.inl ⟨.write, by simp [regWrite, hr]⟩))
  | status => exact .inr (.inr (.inl ⟨.write, by simp [regWrite, hr]⟩))
  | reserved => exact .inr (.inr (.inl ⟨.write, by simp [regWrite, hr]⟩))
  | ctrl =>
    simp only [regWrite, hr, writeCtrl]
    cases hb : s.busy with
    | true =>
      right; right; left
      split
      · exact ⟨.busy, hostCommand_busy _ _ hb⟩
      · split
        · exact ⟨.busy, hostCommand_busy _ _ hb⟩
        · exact ⟨.cmd, rfl⟩
    | false =>
      split
      · exact .inr (.inr (.inr ⟨rfl, .enc, hostCommand_idle _ _ hb⟩))
      · split
        · exact .inr (.inr (.inr ⟨rfl, .dec, hostCommand_idle _ _ hb⟩))
        · exact .inr (.inr (.inl ⟨.cmd, rfl⟩))

/-- Everything a host access can do to the state. -/
theorem access_cases (w : BusWord) (s : State) :
    ∃ t, exec (decodeB w) s = .next t ∧
      ((∃ v, t = deliver v s) ∨
       (∃ (i : Fin 16) (v : Byte), t = { s with key := s.key.set i.val v }) ∨
       (∃ (i : Fin 16) (v : Byte), t = { s with din := s.din.set i.val v }) ∨
       (∃ c, t = flagError c s) ∨
       (s.busy = false ∧ ∃ d, t = acceptCommand d s)) := by
  have cmd : ∀ d, ∃ t, (Host.Outcome.next (hostCommand d s) : Result) = .next t ∧
      ((∃ v, t = deliver v s) ∨
       (∃ (i : Fin 16) (v : Byte), t = { s with key := s.key.set i.val v }) ∨
       (∃ (i : Fin 16) (v : Byte), t = { s with din := s.din.set i.val v }) ∨
       (∃ c, t = flagError c s) ∨
       (s.busy = false ∧ ∃ d, t = acceptCommand d s)) := by
    intro d
    refine ⟨_, rfl, ?_⟩
    cases hb : s.busy with
    | true => exact .inr (.inr (.inr (.inl ⟨.busy, hostCommand_busy d s hb⟩)))
    | false => exact .inr (.inr (.inr (.inr ⟨rfl, d, hostCommand_idle d s hb⟩)))
  unfold decodeB
  split
  · exact cmd .enc
  · split
    · exact cmd .dec
    · split
      · refine ⟨_, rfl, ?_⟩
        obtain ⟨i, _, h⟩ | ⟨i, _, h⟩ | ⟨c, h⟩ | ⟨hb, d, h⟩ := regWrite_cases (busAddr w) (busData w) s
        · exact .inr (.inl ⟨i, _, h⟩)
        · exact .inr (.inr (.inl ⟨i, _, h⟩))
        · exact .inr (.inr (.inr (.inl ⟨c, h⟩)))
        · exact .inr (.inr (.inr (.inr ⟨hb, d, h⟩)))
      · exact ⟨_, rfl, .inl ⟨_, rfl⟩⟩

end Sys2Proof.Machine
end

