-- ==== Sys2Proof/Laws/Step.lean ====
section
/-! SUPPORT. What a turn and a step can do, and how a run over given turns unfolds. -/

namespace Sys2Proof.Machine

/-! ### A turn neither reads nor writes the schedule -/

theorem regRead_reschedule (s : State) (l : List Event) (a : Addr) :
    regRead (reschedule l s) a = regRead s a := by
  unfold regRead; cases region a <;> rfl

theorem flagError_reschedule (c : ErrorCause) (s : State) (l : List Event) :
    flagError c (reschedule l s) = reschedule l (flagError c s) := by
  cases he : s.err <;> simp [flagError, he, reschedule]

theorem hostCommand_reschedule (d : Direction) (s : State) (l : List Event) :
    hostCommand d (reschedule l s) = reschedule l (hostCommand d s) := by
  cases hb : s.busy with
  | true => rw [hostCommand_busy d s hb, hostCommand_busy d _ (by simpa using hb), flagError_reschedule]
  | false =>
    rw [hostCommand_idle d s hb, hostCommand_idle d _ (by simpa using hb)]
    rfl

theorem regWrite_reschedule (a : Addr) (v : Byte) (s : State) (l : List Event) :
    regWrite a v (reschedule l s) = reschedule l (regWrite a v s) := by
  unfold regWrite
  cases region a <;> simp only [flagError_reschedule] <;> try rfl
  unfold writeCtrl
  split
  · exact hostCommand_reschedule _ _ _
  · split
    · exact hostCommand_reschedule _ _ _
    · exact flagError_reschedule _ _ _

theorem exec_reschedule (i : Instr) (s t : State) (l : List Event) (h : exec i s = .next t) :
    exec i (reschedule l s) = .next (reschedule l t) := by
  cases i with
  | rd a => cases h; simp [regRead_reschedule]; rfl
  | wr a v => cases h; simp [regWrite_reschedule]
  | enc => cases h; simp [hostCommand_reschedule]
  | dec => cases h; simp [hostCommand_reschedule]
  | kxr r =>
    simp only [exec, execKxr] at h ⊢
    split at h
    · cases h; simp_all; rfl
    · cases h
  | ark r =>
    simp only [exec, execArk] at h ⊢
    split at h
    · cases h; simp_all; rfl
    · cases h
  | sub => cases h; rfl
  | isub => cases h; rfl
  | shr => cases h; rfl
  | ishr => cases h; rfl
  | mix => cases h; rfl
  | imix => cases h; rfl
  | sto => cases h; rfl

theorem coreTurn_idle (s : State) (h : s.busy = false) : coreTurn s = .next s := by simp [coreTurn, h]

theorem coreTurn_busy (s : State) (i : Instr) (h : s.busy = true)
    (hi : progInstr s.dir s.upc.toNat = some i) : coreTurn s = exec i s := by
  unfold progInstr at hi
  split at hi
  · cases hi
  · rename_i w hw
    cases hd : decodeM w with
    | error e => simp [hd, Except.toOption] at hi
    | ok j =>
      simp [hd, Except.toOption] at hi
      simp [coreTurn, h, fetchMicro, hw, hd, hi]

/-- A CORE turn of a busy core that answers a next state performs the micro-operation of its position. -/
theorem coreTurn_next (s t : State) (h : s.busy = true) (ht : coreTurn s = .next t) :
    ∃ i, progInstr s.dir s.upc.toNat = some i ∧ exec i s = .next t := by
  simp only [coreTurn, h, if_true, fetchMicro] at ht
  unfold progInstr
  cases hw : uprog s.dir s.upc.toNat with
  | none => simp [hw] at ht
  | some w =>
    cases hd : decodeM w with
    | error e => simp [hw, hd] at ht
    | ok i => exact ⟨i, by simp [Except.toOption, hd], by simpa [hw, hd] using ht⟩

theorem turn_reschedule (e : Event) (s t : State) (l : List Event) (h : turn e s = .next t) :
    turn e (reschedule l s) = .next (reschedule l t) := by
  cases e with
  | access w => exact exec_reschedule _ _ _ _ h
  | reset => cases h; rfl
  | core =>
    cases hb : s.busy with
    | false =>
      have h1 : coreTurn s = .next t := h
      rw [coreTurn_idle s hb] at h1
      cases h1
      exact coreTurn_idle _ (by simpa using hb)
    | true =>
      obtain ⟨i, hi, hx⟩ := coreTurn_next s t hb h
      have h1 : coreTurn (reschedule l s) = exec i (reschedule l s) := coreTurn_busy _ i (by simpa using hb) (by simpa using hi)
      exact h1.trans (exec_reschedule i s t l hx)

/-- A turn leaves the schedule as it is. -/
theorem turn_schedule (e : Event) (s t : State) (h : turn e s = .next t) : t.schedule = s.schedule := by
  have h1 := turn_reschedule e s t s.schedule h
  rw [reschedule_self, h] at h1
  injection h1 with h1
  rw [h1]; rfl

/-! ### What a turn can do -/

theorem uprog_past (d : Direction) (n : Nat) (h : 50 < n) : uprog d n = none := by
  have a1 : ¬ n ≤ 9 := by omega
  have a2 : n ≠ 50 := by omega
  have a3 : n ≠ 10 ∧ n ≠ 11 ∧ n ≠ 12 ∧ n ≠ 47 ∧ n ≠ 48 ∧ n ≠ 49 ∧ ¬ n ≤ 46 ∧ ¬ n ≤ 48 := by omega
  unfold uprog
  cases d <;> simp [uprogEnc, uprogDec, a1, a2, a3]

theorem progInstr_past (d : Direction) (n : Nat) (h : 50 < n) : progInstr d n = none := by
  simp [progInstr, uprog_past d n h]

/-- What stands at each position of a micro-program: `KXR 1` to `KXR 10`, then micro-operations on `ST`,
then `STO`. -/
theorem progInstr_cases (d : Direction) (n : Nat) (h : n ≤ 50) :
    (n = 50 ∧ progInstr d n = some .sto) ∨
    (n ≤ 9 ∧ progInstr d n = some (.kxr (BitVec.ofNat 4 (n + 1)))) ∨
    (10 ≤ n ∧ n ≤ 49 ∧ ∃ i, progInstr d n = some i ∧
      ((∃ r : BitVec 4, r.toNat ≤ 10 ∧ i = .ark r) ∨ i = .sub ∨ i = .isub ∨ i = .shr ∨ i = .ishr ∨
        i = .mix ∨ i = .imix)) := by
  have listing : ∀ d ∈ [Direction.enc, Direction.dec], ∀ n < 51, (match progInstr d n with
      | some .sto => decide (n = 50)
      | some (.kxr r) => decide (n ≤ 9 ∧ r = BitVec.ofNat 4 (n + 1))
      | some (.ark r) => decide (10 ≤ n ∧ n ≤ 49 ∧ r.toNat ≤ 10)
      | some .sub => decide (10 ≤ n ∧ n ≤ 49)
      | some .isub => decide (10 ≤ n ∧ n ≤ 49)
      | some .shr => decide (10 ≤ n ∧ n ≤ 49)
      | some .ishr => decide (10 ≤ n ∧ n ≤ 49)
      | some .mix => decide (10 ≤ n ∧ n ≤ 49)
      | some .imix => decide (10 ≤ n ∧ n ≤ 49)
      | _ => false) = true := by decide +kernel
  have k := listing d (by cases d <;> simp) n (by omega)
  cases hp : progInstr d n with
  | none => simp [hp] at k
  | some i => cases i <;> simp [hp] at k ⊢ <;> omega

/-- What CORE's turn does when busy at a position of the micro-program. In the third case `f` is the map of
the micro-operation that stands there, once the round-key store holds the schedule of `K`. -/
theorem coreTurn_cases (s : State) (hb : s.busy = true) (hu : s.upc.toNat ≤ 50) :
    (s.upc = 50 ∧ coreTurn s = .next (storeResult s)) ∨
    (∃ h : s.upc.toNat ≤ 9, coreTurn s = .next (expandRound (s.upc.toNat + 1) (by omega) s)) ∨
    (10 ≤ s.upc.toNat ∧ s.upc.toNat ≤ 49 ∧ ∃ i f, progInstr s.dir s.upc.toNat = some i ∧
      coreTurn s = .next (updateSt f s) ∧
      ∀ K, (∀ j : Fin 11, s.rk[j.val] = roundKey K j.val) → f s.st = microOnSt K i s.st) := by
  obtain ⟨h, hp⟩ | ⟨h, hp⟩ | ⟨h1, h2, i, hp, hi⟩ := progInstr_cases s.dir s.upc.toNat hu
  · exact .inl ⟨BitVec.eq_of_toNat_eq (by simpa using h), (coreTurn_busy s _ hb hp).trans rfl⟩
  · have e : (BitVec.ofNat 4 (s.upc.toNat + 1)).toNat = s.upc.toNat + 1 := by simp; omega
    refine .inr (.inl ⟨h, ?_⟩)
    rw [coreTurn_busy s _ hb hp, exec_kxr _ _ (by omega) (by omega)]
    congr 2
  · refine .inr (.inr ⟨h1, h2, i, ?_⟩)
    obtain ⟨r, hr, rfl⟩ | rfl | rfl | rfl | rfl | rfl | rfl := hi
    · refine ⟨fun S => addRoundKey S s.rk[r.toNat], hp, ?_, ?_⟩
      · rw [coreTurn_busy s _ hb hp, exec_ark _ _ hr]
      · intro K hK
        simp only [microOnSt]
        rw [← hK ⟨r.toNat, by omega⟩]
    · exact ⟨subBytes, hp, coreTurn_busy s _ hb hp, fun _ _ => rfl⟩
    · exact ⟨invSubBytes, hp, coreTurn_busy s _ hb hp, fun _ _ => rfl⟩
    · exact ⟨shiftRows, hp, coreTurn_busy s _ hb hp, fun _ _ => rfl⟩
    · exact ⟨invShiftRows, hp, coreTurn_busy s _ hb hp, fun _ _ => rfl⟩
    · exact ⟨mixColumns, hp, coreTurn_busy s _ hb hp, fun _ _ => rfl⟩
    · exact ⟨invMixColumns, hp, coreTurn_busy s _ hb hp, fun _ _ => rfl⟩

/-- A busy core whose turn answers a next state stands at a position of the micro-program. -/
theorem coreTurn_next_le (s t : State) (hb : s.busy = true) (h : coreTurn s = .next t) : s.upc.toNat ≤ 50 := by
  by_contra hc
  obtain ⟨i, hi, -⟩ := coreTurn_next s t hb h
  rw [progInstr_past _ _ (by omega)] at hi
  cases hi

/-- Everything a turn that answers a next state can have done. -/
theorem turn_cases (e : Event) (s t : State) (h : turn e s = .next t) :
    (e = .reset ∧ t = applyReset s) ∨
    (∃ w, e = .access w ∧
      ((∃ v, t = deliver v s) ∨
       (∃ (i : Fin 16) (v : Byte), t = { s with key := s.key.set i.val v }) ∨
       (∃ (i : Fin 16) (v : Byte), t = { s with din := s.din.set i.val v }) ∨
       (∃ c, t = flagError c s) ∨
       (s.busy = false ∧ ∃ d, t = acceptCommand d s))) ∨
    (e = .core ∧ s.busy = false ∧ t = s) ∨
    (e = .core ∧ s.busy = true ∧ s.upc = 50 ∧ t = storeResult s) ∨
    (e = .core ∧ s.busy = true ∧ ∃ h : s.upc.toNat ≤ 9, t = expandRound (s.upc.toNat + 1) (by omega) s) ∨
    (e = .core ∧ s.busy = true ∧ 10 ≤ s.upc.toNat ∧ s.upc.toNat ≤ 49 ∧
      ∃ i f, progInstr s.dir s.upc.toNat = some i ∧ t = updateSt f s ∧
        ∀ K, (∀ j : Fin 11, s.rk[j.val] = roundKey K j.val) → f s.st = microOnSt K i s.st) := by
  cases e with
  | reset =>
    cases h
    exact .inl ⟨rfl, rfl⟩
  | access w =>
    obtain ⟨u, hu, hc⟩ := access_cases w s
    have h1 : (Host.Outcome.next u : Result) = .next t := hu.symm.trans h
    cases h1
    exact .inr (.inl ⟨w, rfl, hc⟩)
  | core =>
    have hc : coreTurn s = .next t := h
    refine .inr (.inr ?_)
    cases hb : s.busy with
    | false =>
      rw [coreTurn_idle s hb] at hc
      cases hc
      exact .inl ⟨rfl, rfl, rfl⟩
    | true =>
      obtain ⟨h1, h2⟩ | ⟨h1, h2⟩ | ⟨h1, h1', i, f, hp, h2, h3⟩ :=
        coreTurn_cases s hb (coreTurn_next_le s t hb hc)
      · rw [hc] at h2
        injection h2 with h2
        exact .inr (.inl ⟨rfl, rfl, h1, h2⟩)
      · rw [hc] at h2
        injection h2 with h2
        exact .inr (.inr (.inl ⟨rfl, rfl, h1, h2⟩))
      · rw [hc] at h2
        injection h2 with h2
        exact .inr (.inr (.inr ⟨rfl, rfl, h1, h1', i, f, hp, h2, h3⟩))

/-! ### A step, and a run over given turns -/

theorem step_cons (s : State) (e : Event) (rest : List Event) (h : s.schedule = e :: rest) :
    step s = turn e (reschedule rest s) := by simp [step, nextEvent, dropEvent, h]

theorem step_nil (s : State) (h : s.schedule = []) : step s = coreTurn s := by
  have h1 : dropEvent s = s := by
    have h2 : dropEvent s = reschedule s.schedule s := by simp [dropEvent, h]
    rw [h2, reschedule_self]
  simp [step, nextEvent, h, h1, turn]

theorem run_succ (n : Nat) (s t : State) (h : step s = .next t) :
    Host.Core.run Sys2Proof.core (n + 1) s = Host.Core.run Sys2Proof.core n t := by
  have h1 : Sys2Proof.core.step s = .next t := h
  simp only [Host.Core.run]
  rw [h1]

theorem run_succ_next (n : Nat) (s t : State)
    (h : (Host.Core.run Sys2Proof.core (n + 1) s : Result) = .next t) :
    ∃ u, step s = .next u ∧ (Host.Core.run Sys2Proof.core n u : Result) = .next t := by
  cases h1 : step s with
  | next u => exact ⟨u, rfl, by rw [← run_succ n s u h1]; exact h⟩
  | fault f =>
    have h2 : Sys2Proof.core.step s = .fault f := h1
    simp only [Host.Core.run] at h
    rw [h2] at h
    cases h
  | refused f =>
    have h2 : Sys2Proof.core.step s = .refused f := h1
    simp only [Host.Core.run] at h
    rw [h2] at h
    cases h

theorem drive_nil (s : State) : drive [] s = .next (reschedule [] s) := rfl

theorem drive_cons (e : Event) (es : List Event) (s t : State) (h : turn e s = .next t) :
    drive (e :: es) s = drive es t := by
  have h1 : step (reschedule (e :: es) s) = .next (reschedule es t) :=
    (step_cons _ e es rfl).trans (turn_reschedule e s t es h)
  exact run_succ es.length _ _ h1

/-- A run over `e :: es` that answers a next state is the turn `e`, then the run over `es`. -/
theorem drive_cons_next (e : Event) (es : List Event) (s t : State) (h : drive (e :: es) s = .next t) :
    ∃ u, turn e s = .next u ∧ drive es u = .next t := by
  obtain ⟨u, hu, -⟩ := run_succ_next es.length _ t h
  rw [step_cons _ e es rfl, reschedule_reschedule] at hu
  have h1 := turn_reschedule e (reschedule es s) u s.schedule hu
  rw [reschedule_reschedule, reschedule_self] at h1
  exact ⟨_, h1, by rw [← drive_cons e es s _ h1]; exact h⟩

/-- A run over `es ++ fs` is the run over `es`, then the run over `fs`. -/
theorem drive_append (es fs : List Event) (s t : State) (h : drive es s = .next t) :
    drive (es ++ fs) s = drive fs t := by
  induction es generalizing s with
  | nil =>
    rw [drive_nil] at h
    cases h
    rfl
  | cons e es ih =>
    obtain ⟨u, hu, h1⟩ := drive_cons_next e es s t h
    rw [List.cons_append, drive_cons e (es ++ fs) s u hu]
    exact ih u h1

/-- What a run does not depend on the schedule the state came with. -/
theorem drive_reschedule (es l : List Event) (s : State) : drive es (reschedule l s) = drive es s := rfl

end Sys2Proof.Machine
end

