-- ==== Sys2Proof/Laws/Access.lean ====
section
/-! SUPPORT. What a host access can do while the core is idle and while it is busy. -/

namespace Sys2Proof.Machine

/-- A command to an idle core is accepted (R177, R178). -/
theorem turn_command (s : State) (d : Direction) (hb : s.busy = false) :
    turn (.access (commandWord d)) s = .next (acceptCommand d s) := by
  have h : turn (.access (commandWord d)) s = exec (decodeB (commandWord d)) s := rfl
  cases d with
  | enc =>
    have e : decodeB (commandWord .enc) = .enc := decodeB_enc
    rw [h, e, exec_enc, hostCommand_idle _ _ hb]
  | dec =>
    have e : decodeB (commandWord .dec) = .dec := decodeB_dec
    rw [h, e, exec_dec, hostCommand_idle _ _ hb]

/-- Decoding a bus word never gives a write of a command byte to `CTRL` (R82, R90). -/
theorem decodeB_not_command (w : BusWord) (a : Addr) (v : Byte) (h : decodeB w = .wr a v) :
    Instr.isCommand a v = false := by
  by_cases h1 : w = 0x7001#15
  · simp [decodeB, h1] at h
  by_cases h2 : w = 0x7002#15
  · simp [decodeB, h2] at h
  cases hw : busWe w with
  | false => simp [decodeB, h1, h2, hw] at h
  | true =>
    simp only [decodeB, h1, h2, hw, if_true, if_false, Instr.wr.injEq] at h
    obtain ⟨rfl, rfl⟩ := h
    have hf := busWord_fields w
    rw [hw] at hf
    cases hc : Instr.isCommand (busAddr w) (busData w) with
    | false => rfl
    | true =>
      simp only [Instr.isCommand, Bool.and_eq_true, Bool.or_eq_true, beq_iff_eq] at hc
      obtain ⟨ha, hv | hv⟩ := hc
      · rw [ha, hv] at hf
        exact absurd hf.symm h1
      · rw [ha, hv] at hf
        exact absurd hf.symm h2

/-- Decoding a bus word never gives a micro-operation (R90). -/
theorem decodeB_cases (w : BusWord) :
    decodeB w = .enc ∨ decodeB w = .dec ∨ (∃ a, decodeB w = .rd a) ∨ (∃ a v, decodeB w = .wr a v) := by
  by_cases h1 : w = 0x7001#15
  · exact .inl (by simp [decodeB, h1])
  by_cases h2 : w = 0x7002#15
  · exact .inr (.inl (by simp [decodeB, h2]))
  cases hw : busWe w with
  | false => exact .inr (.inr (.inl ⟨_, by simp only [decodeB, h1, h2, hw, if_false]; rfl⟩))
  | true => exact .inr (.inr (.inr ⟨_, _, by simp only [decodeB, h1, h2, hw, if_false]; rfl⟩))

/-- A write to an idle core that is no command leaves it idle. -/
theorem regWrite_idle (a : Addr) (v : Byte) (s : State) (hb : s.busy = false)
    (hc : Instr.isCommand a v = false) : (regWrite a v s).busy = false := by
  unfold regWrite
  cases hr : region a with
  | ctrl =>
    rw [region_eq_ctrl] at hr
    simp only [Instr.isCommand, hr, beq_self_eq_true, Bool.true_and, Bool.or_eq_false_iff,
      beq_eq_false_iff_ne] at hc
    simp [writeCtrl, hc.1, hc.2, hb]
  | key i => exact hb
  | din i => exact hb
  | dout i => simpa using hb
  | status => simpa using hb
  | reserved => simpa using hb

/-- An access to an idle core that is no command leaves it idle. -/
theorem access_idle (w : BusWord) (s t : State) (h : turn (.access w) s = .next t) (hb : s.busy = false)
    (hw : ∀ d, w ≠ commandWord d) : t.busy = false := by
  have hx : exec (decodeB w) s = .next t := h
  have h1 : w ≠ 0x7001#15 := hw .enc
  have h2 : w ≠ 0x7002#15 := hw .dec
  have hn : decodeB w = .enc ∨ decodeB w = .dec → False := by
    cases hwe : busWe w <;> simp [decodeB, h1, h2, hwe]
  obtain hd | hd | ⟨a, hd⟩ | ⟨a, v, hd⟩ := decodeB_cases w
  · exact (hn (.inl hd)).elim
  · exact (hn (.inr hd)).elim
  · rw [hd] at hx
    cases hx
    exact hb
  · rw [hd] at hx
    cases hx
    exact regWrite_idle a v s hb (decodeB_not_command w a v hd)

end Sys2Proof.Machine
end

