-- ==== Sys2Proof/Laws/Datapath.lean ====
section
/-! SUPPORT. One lemma per pure function of the datapath: what stands at one position of its result. -/

namespace Sys2Proof.Machine

@[simp] theorem transpose_get (B : Block) (i : Nat) (h : i < 16) :
    (transpose B)[i] = B[4 * (i % 4) + i / 4] := by simp [transpose]

@[simp] theorem subBytes_get (S : Block) (i : Nat) (h : i < 16) : (subBytes S)[i] = sbox S[i] := by
  simp [subBytes]

@[simp] theorem invSubBytes_get (S : Block) (i : Nat) (h : i < 16) :
    (invSubBytes S)[i] = invSbox S[i] := by simp [invSubBytes]

@[simp] theorem shiftRows_get (S : Block) (i : Nat) (h : i < 16) :
    (shiftRows S)[i] = S[4 * (i / 4) + (i % 4 + i / 4) % 4] := by simp [shiftRows]

@[simp] theorem invShiftRows_get (S : Block) (i : Nat) (h : i < 16) :
    (invShiftRows S)[i] = S[4 * (i / 4) + (i % 4 + 4 - i / 4) % 4] := by simp [invShiftRows]

@[simp] theorem addRoundKey_get (S K : Block) (i : Nat) (h : i < 16) :
    (addRoundKey S K)[i] = S[i] ^^^ K[4 * (i % 4) + i / 4] := by simp [addRoundKey]

/-! The same by row and column, as the spec indexes the matrix (R12). -/

theorem row_of_index (r c : Nat) (hc : c < 4) : (4 * r + c) / 4 = r := by omega

theorem col_of_index (r c : Nat) (hc : c < 4) : (4 * r + c) % 4 = c := by omega

theorem transpose_at (B : Block) (r c : Nat) (hr : r < 4) (hc : c < 4) :
    (transpose B)[4 * r + c] = B[4 * c + r] := by
  simp only [transpose_get, row_of_index r c hc, col_of_index r c hc]

theorem shiftRows_at (S : Block) (r c : Nat) (hr : r < 4) (hc : c < 4) :
    (shiftRows S)[4 * r + c] = S[4 * r + (c + r) % 4] := by
  simp only [shiftRows_get, row_of_index r c hc, col_of_index r c hc]

theorem invShiftRows_at (S : Block) (r c : Nat) (hr : r < 4) (hc : c < 4) :
    (invShiftRows S)[4 * r + c] = S[4 * r + (c + 4 - r) % 4] := by
  simp only [invShiftRows_get, row_of_index r c hc, col_of_index r c hc]

theorem addRoundKey_at (S K : Block) (r c : Nat) (hr : r < 4) (hc : c < 4) :
    (addRoundKey S K)[4 * r + c] = S[4 * r + c] ^^^ K[4 * c + r] := by
  simp only [addRoundKey_get, row_of_index r c hc, col_of_index r c hc]

theorem mapColumns_get (f : Word4 → Word4) (S : Block) (i : Nat) (h : i < 16) :
    (mapColumns f S)[i] = (f (column S ⟨i % 4, Nat.mod_lt _ (by decide)⟩))[i / 4] := by
  simp [mapColumns]

theorem mapColumns_at (f : Word4 → Word4) (S : Block) (r c : Nat) (hr : r < 4) (hc : c < 4) :
    (mapColumns f S)[4 * r + c] = (f (column S ⟨c, hc⟩))[r] := by
  simp only [mapColumns_get, row_of_index r c hc, col_of_index r c hc]

/-- Two blocks are equal when they agree at every row and column. -/
theorem block_ext (A B : Block) (h : ∀ (r c : Nat) (hr : r < 4) (hc : c < 4), A[4 * r + c] = B[4 * r + c]) :
    A = B := by
  apply Vector.ext
  intro i hi
  have h1 := h (i / 4) (i % 4) (by omega) (by omega)
  have h2 : 4 * (i / 4) + i % 4 = i := by omega
  simpa only [h2] using h1

/-- Column `c` of a column map is the map of column `c`. -/
theorem column_mapColumns (f : Word4 → Word4) (S : Block) (c : Fin 4) :
    column (mapColumns f S) c = f (column S c) := by
  apply Vector.ext
  intro i hi
  match i, hi, c with
  | 0, _, 0 | 0, _, 1 | 0, _, 2 | 0, _, 3 => simp [column, mapColumns_get]
  | 1, _, 0 | 1, _, 1 | 1, _, 2 | 1, _, 3 => simp [column, mapColumns_get]
  | 2, _, 0 | 2, _, 1 | 2, _, 2 | 2, _, 3 => simp [column, mapColumns_get]
  | 3, _, 0 | 3, _, 1 | 3, _, 2 | 3, _, 3 => simp [column, mapColumns_get]

@[simp] theorem xorWord_get (a b : Word4) (k : Nat) (h : k < 4) : (xorWord a b)[k] = a[k] ^^^ b[k] := by
  simp [xorWord]

@[simp] theorem subWord_get (w : Word4) (k : Nat) (h : k < 4) : (subWord w)[k] = sbox w[k] := by
  simp [subWord]

@[simp] theorem wordOf_get (K : Block) (j : Fin 4) (k : Nat) (h : k < 4) :
    (wordOf K j)[k] = K[4 * j.val + k] := by simp [wordOf]

@[simp] theorem joinWords_get (w0 w1 w2 w3 : Word4) (i : Nat) (h : i < 16) :
    (joinWords w0 w1 w2 w3)[i] = #v[w0, w1, w2, w3][i / 4][i % 4] := by simp [joinWords]

/-- `xtime` is linear over XOR (R110). -/
theorem xtime_xor (a b : Byte) : xtime (a ^^^ b) = xtime a ^^^ xtime b := by
  apply BitVec.eq_of_getLsbD_eq
  intro i hi
  cases ha7 : a.getLsbD 7 <;> cases hb7 : b.getLsbD 7 <;>
    simp [xtime, ha7, hb7] <;> grind

/-- `xtime` maps 0x00 to 0x00 (R110). -/
@[simp] theorem xtime_zero : xtime 0x00#8 = 0x00#8 := by decide

end Sys2Proof.Machine
end

