-- ==== Sys2Proof/Laws/PerInstr.lean ====
section
/-! SUPPORT. Statements for all instructions, made per instruction: a well-formed instruction is read back
from its own word. -/

namespace Sys2Proof.Laws

/-- Decoding the word of a well-formed instruction gives the instruction (R80 to R90). -/
def DecodeEncode.Statement (i : Instr) : Prop := i.wf = true → decode (encode i) = .ok i

theorem DecodeEncode.rd (a : Addr) : DecodeEncode.Statement (.rd a) := fun _ =>
  congrArg Except.ok (decodeB_rd a 0x00)

theorem DecodeEncode.wr (a : Addr) (v : Byte) : DecodeEncode.Statement (.wr a v) := fun h =>
  congrArg Except.ok (decodeB_wr a v (by simpa [Instr.wf] using h))

theorem DecodeEncode.enc : DecodeEncode.Statement .enc := fun _ => by decide

theorem DecodeEncode.dec : DecodeEncode.Statement .dec := fun _ => by decide

theorem DecodeEncode.kxr (r : BitVec 4) : DecodeEncode.Statement (.kxr r) := fun h => by
  have hl : Instr.legalKxr r = true := h
  simp [encode, decode, decodeM, hl]

theorem DecodeEncode.ark (r : BitVec 4) : DecodeEncode.Statement (.ark r) := fun h => by
  have hl : Instr.legalArk r = true := h
  simp [encode, decode, decodeM, hl]

theorem DecodeEncode.sub : DecodeEncode.Statement .sub := fun _ => by decide

theorem DecodeEncode.isub : DecodeEncode.Statement .isub := fun _ => by decide

theorem DecodeEncode.shr : DecodeEncode.Statement .shr := fun _ => by decide

theorem DecodeEncode.ishr : DecodeEncode.Statement .ishr := fun _ => by decide

theorem DecodeEncode.mix : DecodeEncode.Statement .mix := fun _ => by decide

theorem DecodeEncode.imix : DecodeEncode.Statement .imix := fun _ => by decide

theorem DecodeEncode.sto : DecodeEncode.Statement .sto := fun _ => by decide

end Sys2Proof.Laws
end

