-- ==== Sys2Proof/Tests/Slice0.lean ====
section
/-! SUPPORT. Tests of the model against values printed in the spec (95_test_vectors.md unless a comment says
otherwise), and for every statement with hypotheses a witness that meets them. -/

namespace Sys2Proof.Tests

open Sys2Proof Sys2Proof.Machine

/-- The outcome is a next state with the property. -/
def nextWith (r : Result) (p : State → Bool) : Bool :=
  match r with
  | .next t => p t
  | .fault _ => false
  | .refused _ => false

theorem nextWith_next (r : Result) (p : State → Bool) (h : nextWith r p = true) :
    ∃ t, r = .next t ∧ p t = true := by
  cases r with
  | next t => exact ⟨t, rfl, h⟩
  | fault f => cases h
  | refused f => cases h

/-- The key of 95_test_vectors.md 1.1. -/
def key8 : Block :=
  #v[0x54, 0x68, 0x61, 0x74, 0x73, 0x20, 0x6D, 0x79, 0x20, 0x4B, 0x75, 0x6E, 0x67, 0x20, 0x46, 0x75]

/-- The plaintext of 95_test_vectors.md 1.1. -/
def plain8 : Block :=
  #v[0x54, 0x77, 0x6F, 0x20, 0x4F, 0x6E, 0x65, 0x20, 0x4E, 0x69, 0x6E, 0x65, 0x20, 0x54, 0x77, 0x6F]

/-- The ciphertext of 95_test_vectors.md 1.1. -/
def cipher8 : Block :=
  #v[0x29, 0xC3, 0x50, 0x5F, 0x57, 0x14, 0x20, 0xF6, 0x40, 0x22, 0x99, 0xB3, 0x1A, 0x02, 0xD7, 0x3A]

/-- The bytes 0x00 to 0x0F in order. -/
def countUp : Block :=
  #v[0x00, 0x01, 0x02, 0x03, 0x04, 0x05, 0x06, 0x07, 0x08, 0x09, 0x0A, 0x0B, 0x0C, 0x0D, 0x0E, 0x0F]

/-- Round key 9 of the key of 1.1 (2.5). -/
def roundKey9 : Block :=
  #v[0xBF, 0xE2, 0xBF, 0x90, 0x45, 0x59, 0xFA, 0xB2, 0xA1, 0x64, 0x80, 0xB4, 0xF7, 0xF1, 0xCB, 0xD8]

/-- Round key 10 of the key of 1.1 (2.5). -/
def roundKey10 : Block :=
  #v[0x28, 0xFD, 0xDE, 0xF8, 0x6D, 0xA4, 0x24, 0x4A, 0xCC, 0xC0, 0xA4, 0xFE, 0x3B, 0x31, 0x6F, 0x26]

/-- A busy core with the given `ST` at the given position. -/
def busyWith (S : Block) (n : BitVec 6) : State := { State.reset with st := S, upc := n, busy := true }

/-- The reset state with the key and plaintext of 95_test_vectors.md 1.1 loaded. -/
def loaded : State := { State.reset with key := key8, din := plain8 }

/-! ## WellFormed -/

/-- R82, R90: the `WR` of a command byte is no well-formed `WR`. -/
theorem test_wf_command_write_refused :
    (Instr.wr 0x30 0x01).wf = false ∧ (Instr.wr 0x30 0x02).wf = false := by decide

theorem test_wf_other_writes_accepted :
    (Instr.wr 0x30 0x00).wf = true ∧ (Instr.wr 0x30 0x03).wf = true ∧ (Instr.wr 0x31 0x01).wf = true := by decide

/-- R84: `KXR` takes 1 to 10. -/
theorem test_wf_kxr_range : (Instr.kxr 0).wf = false ∧ (Instr.kxr 11).wf = false ∧ (Instr.kxr 15).wf = false ∧
    (Instr.kxr 1).wf = true ∧ (Instr.kxr 10).wf = true := by decide

/-- R84: `ARK` takes 0 to 10. -/
theorem test_wf_ark_range : (Instr.ark 11).wf = false ∧ (Instr.ark 15).wf = false ∧
    (Instr.ark 0).wf = true ∧ (Instr.ark 10).wf = true := by decide

/-! ## Decoding of words written out from R81, R83 and R85 -/

/-- `we` 0, `addr` 110001, `wdata` ignored. -/
theorem test_decode_rd : decodeTableWord 16 0b0011000111111111 = some (.rd 0x31) := by
  decide

/-- `we` 1, `addr` 000000, `wdata` 0x54. -/
theorem test_decode_wr : decodeTableWord 16 0b0100000001010100 = some (.wr 0x00 0x54) := by
  decide

/-- `we` 1, `addr` 011111, `wdata` 0x7E. -/
theorem test_decode_wr_din : decodeTableWord 16 0b0101111101111110 = some (.wr 0x1F 0x7E) := by
  decide

/-- `we` 1, `addr` 110000, `wdata` 0x01. -/
theorem test_decode_enc : decodeTableWord 16 0b0111000000000001 = some (.enc) := by
  decide

/-- `we` 1, `addr` 110000, `wdata` 0x02. -/
theorem test_decode_dec : decodeTableWord 16 0b0111000000000010 = some (.dec) := by
  decide

/-- A reserved command byte stays a `WR` (R86). -/
theorem test_decode_write_of_reserved_command : decodeTableWord 16 0b0111000000000011 = some (.wr 0x30 0x03) := by
  decide

theorem test_decode_kxr : decodeTableWord 8 0b00011010 = some (.kxr 10) := by
  decide

theorem test_decode_ark : decodeTableWord 8 0b00100000 = some (.ark 0) := by
  decide

theorem test_decode_sub : decodeTableWord 8 0b00110000 = some (.sub) := by
  decide

theorem test_decode_isub : decodeTableWord 8 0b01000000 = some (.isub) := by
  decide

theorem test_decode_shr : decodeTableWord 8 0b01010000 = some (.shr) := by
  decide

theorem test_decode_ishr : decodeTableWord 8 0b01100000 = some (.ishr) := by
  decide

theorem test_decode_mix : decodeTableWord 8 0b01110000 = some (.mix) := by
  decide

theorem test_decode_imix : decodeTableWord 8 0b10000000 = some (.imix) := by
  decide

theorem test_decode_sto : decodeTableWord 8 0b10010000 = some (.sto) := by
  decide

/-- R86: the reserved words of format M, each under its own name. -/
theorem test_decode_reserved_micro : decodeM 0x00 = .error .reservedOp ∧ decodeM 0xA0 = .error .reservedOp ∧
    decodeM 0xFF = .error .reservedOp ∧ decodeM 0x10 = .error .illegalRound ∧
    decodeM 0x1B = .error .illegalRound ∧ decodeM 0x2B = .error .illegalRound ∧
    decodeM 0x31 = .error .roundNotZero ∧ decodeM 0x9F = .error .roundNotZero := by decide

/-- R86: the reserved command bytes of format C. -/
theorem test_decode_reserved_command :
    decodeC 0x00 = .error .reservedCommand ∧ decodeC 0x81 = .error .reservedCommand := by decide

/-- A number that is no word of the table. -/
theorem test_decode_no_word :
    decodeTableWord 16 0x8000 = none ∧ decodeTableWord 8 0x100 = none ∧ decodeTableWord 32 0 = none := by decide

/-! ## One step per instruction -/

/-- 2.10: `STATUS` 0x05 after `DEC` is accepted by a core in reset. -/
theorem test_rd_status : nextWith (exec (.rd 0x31) { State.reset with busy := true, dir := .dec })
    (fun t => t.hostReads == [0x05]) = true := by decide +kernel

/-- 20_memory.md R51: 0x2F is `DOUT[15]`. -/
theorem test_rd_dout : nextWith (exec (.rd 0x2F) { State.reset with dout := cipher8 })
    (fun t => t.hostReads == [0x3A]) = true := by decide +kernel

/-- 2.10: `WR 0x1F, 0x7E` then `RD 0x1F`. -/
theorem test_wr_din : nextWith (exec (.wr 0x1F 0x7E) State.reset)
    (fun t => regRead t 0x1F == 0x7E && regRead t 0x0F == 0x00 && regRead t 0x31 == 0x00) = true := by decide +kernel

/-- 2.10: `DEC` accepted, then the reserved command byte 0x55: `STATUS` 0x1D. -/
theorem test_wr_reserved_command_while_busy : nextWith (exec (.wr 0x30 0x55) (acceptCommand .dec State.reset))
    (fun t => regRead t 0x31 == 0x1D) = true := by decide +kernel

/-- 2.7: `ST` at acceptance of the encryption; `STATUS` 0x01. -/
theorem test_enc_accepted : nextWith (exec .enc loaded) (fun t =>
    t.st == #v[0x54, 0x4F, 0x4E, 0x20, 0x77, 0x6E, 0x69, 0x54, 0x6F, 0x65, 0x6E, 0x77, 0x20, 0x20, 0x65, 0x6F] &&
    t.rk[0] == key8 && t.rc == 0x01 && regRead t 0x31 == 0x01) = true := by decide +kernel

/-- 2.10: `ENC` accepted, then `DEC`: `STATUS` 0x29, `DIR` still 0. -/
theorem test_dec_while_busy : nextWith (exec .dec (acceptCommand .enc State.reset))
    (fun t => regRead t 0x31 == 0x29) = true := by decide +kernel

/-- 2.10: `DEC` accepted by a core in reset: `STATUS` 0x05. -/
theorem test_dec_accepted : nextWith (exec .dec State.reset) (fun t => regRead t 0x31 == 0x05) = true := by decide +kernel

/-- 2.5: the first step of the schedule of the key of 1.1. -/
theorem test_kxr_1 : nextWith (exec (.kxr 1) { acceptCommand .enc loaded with key := zeroBlock }) (fun t =>
    t.rk[1] == #v[0xE2, 0x32, 0xFC, 0xF1, 0x91, 0x12, 0x91, 0x88, 0xB1, 0x59, 0xE4, 0xE6, 0xD6, 0x79, 0xA2, 0x93] &&
      t.rk[0] == key8 && t.rc == 0x02 && t.upc == 1) = true := by decide +kernel

/-- 2.5: the last step, with `RC` 0x36; `RC` is 0x6C after it. -/
theorem test_kxr_10 : nextWith
    (exec (.kxr 10) { busyWith zeroBlock 9 with rc := 0x36, rk := State.reset.rk.set 9 roundKey9 })
    (fun t => t.rk[10] == roundKey10 && t.rc == 0x6C) = true := by decide +kernel

/-- 2.7: `UPC` 10 of the encryption. -/
theorem test_ark_0 : nextWith (exec (.ark 0) { busyWith (transpose plain8) 10 with rk := State.reset.rk.set 0 key8 })
    (fun t => t.st == #v[0x00, 0x3C, 0x6E, 0x47, 0x1F, 0x4E, 0x22, 0x74, 0x0E, 0x08, 0x1B, 0x31, 0x54, 0x59, 0x0B, 0x1A] &&
      t.upc == 11) = true := by decide +kernel

/-- 2.7: `UPC` 10 of the decryption. -/
theorem test_ark_10 : nextWith (exec (.ark 10) { busyWith (transpose cipher8) 10 with
      rk := State.reset.rk.set 10 roundKey10 })
    (fun t => t.st == #v[0x01, 0x3A, 0x8C, 0x21, 0x3E, 0xB0, 0xE2, 0x33, 0x8E, 0x04, 0x3D, 0xB8, 0xA7, 0xBC, 0x4D, 0x1C]) = true := by
  decide +kernel

/-- 2.1. -/
theorem test_sub : nextWith (exec .sub (busyWith countUp 12)) (fun t =>
    t.st == #v[0x63, 0x7C, 0x77, 0x7B, 0xF2, 0x6B, 0x6F, 0xC5, 0x30, 0x01, 0x67, 0x2B, 0xFE, 0xD7, 0xAB, 0x76] &&
      t.upc == 13) = true := by
  decide +kernel

/-- 2.1. -/
theorem test_isub : nextWith (exec .isub (busyWith countUp 12)) (fun t =>
    t.st == #v[0x52, 0x09, 0x6A, 0xD5, 0x30, 0x36, 0xA5, 0x38, 0xBF, 0x40, 0xA3, 0x9E, 0x81, 0xF3, 0xD7, 0xFB] &&
      t.upc == 13) = true := by
  decide +kernel

/-- 2.3. -/
theorem test_shr : nextWith (exec .shr (busyWith countUp 12)) (fun t =>
    t.st == #v[0x00, 0x01, 0x02, 0x03, 0x05, 0x06, 0x07, 0x04, 0x0A, 0x0B, 0x08, 0x09, 0x0F, 0x0C, 0x0D, 0x0E] &&
      t.upc == 13) = true := by
  decide +kernel

/-- 2.3. -/
theorem test_ishr : nextWith (exec .ishr (busyWith countUp 12)) (fun t =>
    t.st == #v[0x00, 0x01, 0x02, 0x03, 0x07, 0x04, 0x05, 0x06, 0x0A, 0x0B, 0x08, 0x09, 0x0D, 0x0E, 0x0F, 0x0C] &&
      t.upc == 13) = true := by
  decide +kernel

/-- 2.4. -/
theorem test_mix : nextWith (exec .mix (busyWith countUp 12)) (fun t =>
    t.st == #v[0x08, 0x09, 0x0A, 0x0B, 0x1C, 0x1D, 0x1E, 0x1F, 0x00, 0x01, 0x02, 0x03, 0x14, 0x15, 0x16, 0x17] &&
      t.upc == 13) = true := by
  decide +kernel

/-- 2.4. -/
theorem test_imix : nextWith (exec .imix (busyWith countUp 12)) (fun t =>
    t.st == #v[0x28, 0x29, 0x2A, 0x2B, 0x3C, 0x3D, 0x3E, 0x3F, 0x20, 0x21, 0x22, 0x23, 0x34, 0x35, 0x36, 0x37] &&
      t.upc == 13) = true := by
  decide +kernel

/-- 2.7: `UPC` 13 of the encryption. -/
theorem test_mix_trace : nextWith (exec .mix (busyWith
      #v[0x63, 0xEB, 0x9F, 0xA0, 0x2F, 0x93, 0x92, 0xC0, 0xAF, 0xC7, 0xAB, 0x30, 0xA2, 0x20, 0xCB, 0x2B] 13)) (fun t =>
    t.st == #v[0xBA, 0x84, 0xE8, 0x1B, 0x75, 0xA4, 0x8D, 0x40, 0xF4, 0x8D, 0x06, 0x7D, 0x7A, 0x32, 0x0E, 0x5D]) = true := by
  decide +kernel

/-- 2.7: `UPC` 14 of the decryption. -/
theorem test_imix_trace : nextWith (exec .imix (busyWith
      #v[0xB6, 0xE7, 0x51, 0x8C, 0x84, 0x88, 0x98, 0xCA, 0x34, 0x60, 0x66, 0xFB, 0xE8, 0xD7, 0x70, 0x51] 14)) (fun t =>
    t.st == #v[0x33, 0x51, 0x79, 0x0A, 0x8B, 0x66, 0x8F, 0x3F, 0x76, 0x7D, 0xEB, 0xBE, 0x20, 0x92, 0xC2, 0x67]) = true := by
  decide +kernel

/-- 2.7: the last micro-operation of the encryption; `STATUS` 0x02 after it (2.10). -/
theorem test_sto : nextWith (exec .sto (busyWith
      #v[0x29, 0x57, 0x40, 0x1A, 0xC3, 0x14, 0x22, 0x02, 0x50, 0x20, 0x99, 0xD7, 0x5F, 0xF6, 0xB3, 0x3A] 50)) (fun t =>
    t.dout == cipher8 && t.upc == 0 && regRead t 0x31 == 0x02) = true := by decide +kernel

/-! ## The pure functions and the step -/

/-- 1.1: the known-answer vector. -/
theorem test_known_answer : encryptBlock plain8 key8 = cipher8 ∧ decryptBlock cipher8 key8 = plain8 := by
  decide +kernel

/-- 2.2. -/
theorem test_gmul : gmul 0x57 0x83 = 0xC1 ∧ gmul 0x57 0x13 = 0xFE ∧ gmul 0x53 0xCA = 0x01 ∧ xtime 0xFF = 0xE5 := by
  decide +kernel

/-- 2.5: round key 10 of the all-zero key. -/
theorem test_round_key : roundKey zeroBlock 10 = #v[0xB4, 0xEF, 0x5B, 0xCB, 0x3E, 0x92, 0xE2, 0x11, 0x23, 0xE9, 0x51, 0xCF, 0x6F, 0x8F, 0x18, 0x8E] := by
  decide +kernel

/-- 46_blocktransform.md R174: an idle core has no step. -/
theorem test_idle_core_turn : nextWith (step State.reset) (fun t => t == State.reset) = true := by decide +kernel

/-- 70_reset_and_hazards.md R230: a reset turn between two steps. -/
theorem test_reset_turn : nextWith (step { busyWith countUp 30 with schedule := [.reset, .core] })
    (fun t => t.st == zeroBlock && t.busy == false && t.schedule == [.core]) = true := by decide +kernel

/-- The placed word is the next one performed: a bus word and a micro-operation. -/
theorem test_fetch_word :
    nextWith (step (State.reset.withFetchWord 16 0x7001)) (fun t => t == acceptCommand .enc State.reset) = true ∧
    nextWith (step (State.reset.withFetchWord 8 0x90)) (fun t => t.done && t.upc == 0) = true := by decide +kernel

/-- A word that no position holds stops the machine. -/
theorem test_fetch_word_reserved : nextWith (step (State.reset.withFetchWord 8 0x10)) (fun _ => true) = false := by
  decide +kernel

/-! ## Witnesses: the hypotheses of each statement are met -/

/-- An encryption of the block of 1.1 just accepted, no turn scheduled. -/
def accepted : State := acceptCommand .enc loaded

/-- A busy core about to perform `STO`. -/
def atSto : State := busyWith countUp 50

theorem inv_accepted : Inv accepted plain8 key8 where
  operation := {
    idle := fun h => absurd h (by decide)
    running := fun _ => by decide
    keys := fun _ j hj => by
      have h0 : j = 0 := Fin.ext (Nat.le_zero.mp hj)
      subst h0
      decide
    constant := fun _ => by decide
    working := fun _ => rfl
    result := fun h => absurd h (by decide) }
  errors := by decide

/-- Each clause of `StepRunsTheDecodedInstruction`: an access, CORE's turn while busy (scheduled and by
default, at the first and the last position), CORE's turn while idle, a reset. -/
theorem witness_StepRunsTheDecodedInstruction :
    (reschedule [.access 0x7001] State.reset).schedule = .access 0x7001 :: [] ∧
    ((reschedule [.core] accepted).schedule = .core :: [] ∧ (reschedule [.core] accepted).busy = true ∧
      uprog .enc 0 = some 0x11 ∧ decodeM 0x11 = .ok (.kxr 1)) ∧
    (atSto.schedule = [] ∧ atSto.busy = true ∧ uprog atSto.dir atSto.upc.toNat = some 0x90 ∧
      decodeM 0x90 = .ok .sto) ∧
    (State.reset.schedule = [] ∧ State.reset.busy = false) ∧
    (reschedule [.reset] accepted).schedule = .reset :: [] := by decide

theorem witness_FetchWordRunsNext :
    decodeTableWord 16 0x0000 = some (.rd 0x00) ∧ decodeTableWord 15 0x7FFF = some (.wr 0x3F 0xFF) ∧
      decodeTableWord 8 0x11 = some (.kxr 1) ∧ decodeTableWord 8 0x90 = some .sto := by decide

/-- A step inside an operation, and one that accepts a command. -/
theorem witness_StepKeepsR40 :
    (Inv accepted plain8 key8 ∧ ∃ t, step accepted = .next t) ∧
    (∃ P K s t, Inv s P K ∧ acceptsNext s = true ∧ step s = .next t) := by
  refine ⟨⟨inv_accepted, _, rfl⟩, zeroBlock, zeroBlock, reschedule [.access 0x7002] State.reset, ?_⟩
  refine ⟨_, ⟨⟨fun _ => rfl, ?_, ?_, ?_, ?_, ?_⟩, by decide⟩, by decide, rfl⟩
  all_goals intro h; exact absurd h (by decide)

theorem witness_SafeStateNeverStops : Safe accepted := ⟨_, _, inv_accepted⟩

theorem witness_DecodeOfEncode : (Instr.wr 0x30 0x03).wf = true ∧ (Instr.kxr 10).wf = true := by decide

theorem witness_EncodeOfDecode : decodeM 0x11 = .ok (.kxr 1) ∧ decodeM 0x90 = .ok .sto := by decide

theorem witness_DecodeFollowsTheOpcodeTable : decodeM 0x2A = .ok (.ark 10) ∧
    (Instr.ark 10).wf = true ∧ encode (.ark 10) = encode (.ark 10) := by decide

theorem witness_CommandIsAWriteToCtrl : decodeC 0x01 = .ok .enc ∧ decodeC 0x02 = .ok .dec := by decide

/-- The ends of the reserved range. -/
theorem witness_ReadReturnsTheMappedByte : 0x32 ≤ (0x32 : Addr).toNat ∧ 0x32 ≤ (0x3F : Addr).toNat := by decide

/-- The first and the last index, and another index and address. -/
theorem witness_WriteStoresOneOperandByte : (0 < 16 ∧ 15 < 16 ∧ (1 : Nat) ≠ 0) ∧
    (0x10 : Addr) ≠ BitVec.ofNat 6 15 ∧ (0x0F : Addr) ≠ BitVec.ofNat 6 (0x10 + 0) := by decide

/-- The ends of the ranges of addresses, the command bytes next to the legal ones, a busy core. -/
theorem witness_ErrorsAreOnlyRecorded :
    (0x20 ≤ (0x20 : Addr).toNat ∧ (0x20 : Addr) ≠ 0x30) ∧ (0x20 ≤ (0x31 : Addr).toNat ∧ (0x31 : Addr) ≠ 0x30) ∧
    (0x20 ≤ (0x3F : Addr).toNat ∧ (0x3F : Addr) ≠ 0x30) ∧ ((0x00 : Byte) ≠ 0x01 ∧ (0x00 : Byte) ≠ 0x02) ∧
    ((0x03 : Byte) ≠ 0x01 ∧ (0x03 : Byte) ≠ 0x02) ∧ accepted.busy = true := by decide

theorem witness_IdleCoreAcceptsACommand : loaded.busy = false ∧ (10 : Nat) < 11 ∧ (10 : Nat) ≠ 0 := by decide

/-- In order and in the opposite order. -/
theorem witness_LoadsFillTheRegisterInAnyOrder :
    (hostEvents (ldkey key8)).Perm (hostEvents (ldkey key8)) ∧
    (hostEvents (ldblk plain8)).reverse.Perm (hostEvents (ldblk plain8)) := ⟨List.Perm.refl _, List.reverse_perm _⟩

/-- The ends of the range, and the last round key that is left alone. -/
theorem witness_KeyExpansionRound : (1 ≤ 1 ∧ 1 ≤ 10) ∧ (1 ≤ 10 ∧ 10 ≤ 10) ∧ (9 < 11 ∧ 9 ≠ 10) := by decide

theorem witness_AddRoundKeyMicroOperation : (0 ≤ 10 ∧ 10 ≤ 10) ∧ (3 < 4 ∧ 0 < 4) := by decide

/-- The address on each side of the bytes of `DOUT`, neither of them `STATUS`. -/
theorem witness_StoreMicroOperation :
    ((0x1F : Addr).toNat < 0x20 ∧ (0x1F : Addr) ≠ 0x31) ∧ (0x30 ≤ (0x30 : Addr).toNat ∧ (0x30 : Addr) ≠ 0x31) ∧
    (0x30 ≤ (0x3F : Addr).toNat ∧ (0x3F : Addr) ≠ 0x31) := by decide

theorem witness_IllegalRoundStops : (0 : BitVec 4).toNat = 0 ∧ 10 < (11 : BitVec 4).toNat ∧
    10 < (15 : BitVec 4).toNat := by decide

theorem witness_SboxIsTheConstruction : gmul 0x53 0xCA = 0x01 := by decide

theorem witness_GmulFieldLaws : (0x01 : Byte) ≠ 0x00 ∧ (0xFF : Byte) ≠ 0x00 ∧ (51 ≤ 51) ∧
    gmul 0xFF 0x1C = 0x01 := by decide

theorem witness_ConstantMultipliers : mul2 ∈ [mul2, mul3, mul9, mul11, mul13, mul14] ∧
    mul14 ∈ [mul2, mul3, mul9, mul11, mul13, mul14] := by simp

theorem witness_RoundConstants : 1 ≤ 1 ∧ 1 ≤ 10 := by decide

theorem witness_ScheduleWordsRecurrence : (4 ≤ 4 ∧ 4 < 44) ∧ (4 ≤ 43 ∧ 43 < 44) ∧ (3 < 4 ∧ 0 < 4) := by decide

theorem witness_MicroProgramListings : 50 < 51 := by decide

/-- The first and the last position of the rounds. -/
theorem witness_RoundIndexIsTheArkOperand : (10 ≤ 10 ∧ 10 ≤ 49) ∧ (10 ≤ 49 ∧ 49 ≤ 49) := by decide

/-- 46_blocktransform.md R176: round 3 of `ENC` begins at 19 and round 3 of `DEC` ends at 40 (2.7). -/
theorem test_round_index : roundIndex .enc 19 = some 3 ∧ roundIndex .enc 47 = some 10 ∧
    roundIndex .dec 40 = some 3 ∧ roundIndex .dec 12 = some 10 := by decide

/-- A micro-operation before `STO`, and an access. -/
theorem witness_OnlyStoWritesDout :
    (∃ t, turn .core accepted = .next t ∧ ¬ (Event.core = .core ∧ accepted.busy = true ∧ accepted.upc = 50)) ∧
    (∃ t, turn (.access 0x60AA) accepted = .next t ∧
      ¬ (Event.access 0x60AA = .core ∧ accepted.busy = true ∧ accepted.upc = 50)) :=
  ⟨⟨_, rfl, by decide⟩, ⟨_, rfl, by decide⟩⟩

/-- CORE's turn while busy, at the first position and at the last, and while idle. -/
theorem witness_CoreNeverWritesHostRegisters : (∃ t, turn .core accepted = .next t) ∧
    (∃ t, turn .core atSto = .next t) ∧ (∃ t, turn .core State.reset = .next t) :=
  ⟨⟨_, rfl⟩, ⟨_, rfl⟩, ⟨_, rfl⟩⟩

/-- A command to a busy core and a write to an idle one; two states that differ only where HOST cannot see. -/
theorem witness_HiddenStateIsOutOfReach :
    (∃ t, turn (.access 0x7001) accepted = .next t) ∧
    ¬ (accepted.busy = false ∧ ((0x7001 : BusWord) = commandWord .enc ∨ (0x7001 : BusWord) = commandWord .dec)) ∧
    (∃ t, turn (.access 0x40FF) State.reset = .next t) ∧
    ¬ (State.reset.busy = false ∧ ((0x40FF : BusWord) = commandWord .enc ∨ (0x40FF : BusWord) = commandWord .dec)) ∧
    SameVisible { accepted with st := zeroBlock, rc := 0x55, upc := 7 } accepted :=
  ⟨⟨_, rfl⟩, by decide, ⟨_, rfl⟩, by decide, rfl, rfl, rfl, rfl, rfl, rfl, rfl, rfl⟩

/-- Two states that differ in all three fields and both take a step, and two that both stop. -/
theorem witness_ErrorFlagsAffectNothingElse :
    (SameButErrors accepted { accepted with err := true, ecode := 3, hostReads := [0x55] } ∧
      ∃ t, step accepted = .next t) ∧
    (SameButErrors (busyWith zeroBlock 63) { busyWith zeroBlock 63 with err := true, ecode := 1 } ∧
      step (busyWith zeroBlock 63) = .fault .noMicroOperation) := ⟨⟨rfl, _, rfl⟩, rfl, rfl⟩

/-- An error recorded before and after the turn, and one that a turn records. -/
theorem witness_ErrorIsSticky :
    (∃ t, turn (.access 0x71FF) { State.reset with err := true, ecode := 1 } = .next t) ∧
    (∃ t, turn (.access 0x71FF) State.reset = .next t ∧ State.reset.err = false ∧ t.err = true) :=
  ⟨⟨_, rfl⟩, ⟨_, rfl, rfl, by decide⟩⟩

/-- Two busy states with different data, a host access and CORE's turn. -/
theorem witness_SequenceIsIndependentOfData :
    ((busyWith countUp 20).busy = (busyWith zeroBlock 20).busy ∧
      (busyWith countUp 20).upc = (busyWith zeroBlock 20).upc ∧
      (busyWith countUp 20).dir = (busyWith zeroBlock 20).dir) ∧
    (∃ t₁ t₂, turn .core (busyWith countUp 20) = .next t₁ ∧ turn .core (busyWith zeroBlock 20) = .next t₂) ∧
    (∃ t₁ t₂, turn (.access 0x7001) (busyWith countUp 20) = .next t₁ ∧
      turn (.access 0x7001) (busyWith zeroBlock 20) = .next t₂) :=
  ⟨⟨rfl, rfl, rfl⟩, ⟨_, _, rfl, rfl⟩, ⟨_, _, rfl, rfl⟩⟩

theorem witness_OperandsAreNotReadWhileBusy :
    SameButOperands accepted { accepted with key := zeroBlock, din := countUp } ∧
      ∃ t, turn .core accepted = .next t := ⟨rfl, _, rfl⟩

/-- `STO`, a step before it, acceptance while `DONE`, and an access while `DONE` that accepts nothing. -/
theorem witness_AcceptedCommandIsBusyOrDone :
    (∃ t, turn .core atSto = .next t ∧ atSto.busy = true) ∧
    (∃ t, turn .core accepted = .next t ∧ accepted.busy = true) ∧
    (∃ t, turn (.access 0x7001) { loaded with done := true } = .next t) ∧
    (∃ t, turn (.access 0x3100) { loaded with done := true } = .next t) :=
  ⟨⟨_, rfl, rfl⟩, ⟨_, rfl, rfl⟩, ⟨_, rfl⟩, ⟨_, rfl⟩⟩

/-- Pins with `rst`, and with an access as well. -/
theorem witness_ResetWins : (BusPins.mk true true true 0x30 0x01).rst = true := rfl

theorem witness_CommandInTheStoCycleIsBusy :
    (BusPins.mk false true true 0x30 0x02).rst = false ∧ (BusPins.mk false true true 0x30 0x02).sel = true ∧
    pinsWord ⟨false, true, true, 0x30, 0x02⟩ = commandWord .dec ∧ atSto.busy = true ∧ atSto.upc = 50 ∧
    atSto.err = false := by decide

/-- Fifty CORE turns between which HOST overwrites an operand byte, polls, and causes an error. -/
def hostInterferes : List Event :=
  List.replicate 20 .core ++ [.access 0x5000, .access 0x3100, .access 0x7002] ++ List.replicate 30 .core

theorem witness_OperationComputesTheBlockFunction : loaded.busy = false ∧ .reset ∉ hostInterferes ∧
    hostInterferes.count .core = 50 := by decide

/-- The fewest and the most CORE turns. -/
theorem witness_OperationRunsForFiftyOneCoreTurns : loaded.busy = false ∧ .reset ∉ hostInterferes ∧
    hostInterferes.count .core ≤ 50 ∧ ([] : List Event).count .core ≤ 50 := by decide

theorem witness_OperationIsStateless :
    loaded.busy = false ∧ { loaded with dout := countUp, err := true, done := true }.busy = false ∧
    loaded.din = { loaded with dout := countUp, err := true, done := true }.din ∧
    loaded.key = { loaded with dout := countUp, err := true, done := true }.key ∧
    .reset ∉ hostInterferes ∧ .reset ∉ List.replicate 50 Event.core ∧
    hostInterferes.count .core = 50 ∧ (List.replicate 50 Event.core).count .core = 50 := by decide

theorem witness_EncryptAndDecryptReturnTheBlock : State.reset.busy = false := rfl

/-- The encryption of 1.1 as a run. -/
theorem witness_EncThenDecRestoresTheBlock : loaded.busy = false ∧
    ∃ t, drive (.access (commandWord .enc) :: List.replicate 51 .core) loaded = .next t ∧
      (t.dout == cipher8) = true :=
  ⟨rfl, nextWith_next _ (fun t => t.dout == cipher8) (by decide +kernel)⟩

end Sys2Proof.Tests
end

/-! PROOFS for the statements about the state (10_state.md): what a host access and a turn of CORE leave
unchanged, the invariant of R40, and the error flags. -/

namespace Sys2Proof.Machine

/-! ### What a host access and a turn of CORE can do -/

/-- The two states agree on every element that an operation reads or writes while it runs, and on its result. -/
structure SameOperation (s t : State) : Prop where
  dout : t.dout = s.dout
  st : t.st = s.st
  rk : t.rk = s.rk
  rc : t.rc = s.rc
  upc : t.upc = s.upc
  busy : t.busy = s.busy
  done : t.done = s.done
  dir : t.dir = s.dir

theorem sameOperation_flagError (c : ErrorCause) (s : State) : SameOperation s (flagError c s) := by
  constructor <;> simp

/-- A host access that makes an idle core busy is a command, accepted (R173). -/
theorem access_starts_operation {w : BusWord} {s t : State} (h : turn (.access w) s = .next t)
    (hs : s.busy = false) (ht : t.busy = true) : ∃ d, w = commandWord d ∧ t = acceptCommand d s := by
  by_cases hw : ∃ d, w = commandWord d
  · obtain ⟨d, rfl⟩ := hw
    rw [turn_command s d hs] at h
    injection h with h
    exact ⟨d, rfl, h.symm⟩
  · have hidle := access_idle w s t h hs (fun d hd => hw ⟨d, hd⟩)
    rw [ht] at hidle
    cases hidle

/-- A host access leaves the operation alone, or it is the command that an idle core accepts. -/
theorem access_sameOperation_or_accepts {w : BusWord} {s t : State} (h : turn (.access w) s = .next t) :
    SameOperation s t ∨ s.busy = false ∧ ∃ d, w = commandWord d ∧ t = acceptCommand d s := by
  obtain ⟨u, hu, hc⟩ := access_cases w s
  obtain rfl : u = t := Host.Outcome.next.inj (hu.symm.trans h)
  obtain ⟨v, rfl⟩ | ⟨i, v, rfl⟩ | ⟨i, v, rfl⟩ | ⟨c, rfl⟩ | ⟨hb, d, hd⟩ := hc
  · exact .inl ⟨rfl, rfl, rfl, rfl, rfl, rfl, rfl, rfl⟩
  · exact .inl ⟨rfl, rfl, rfl, rfl, rfl, rfl, rfl, rfl⟩
  · exact .inl ⟨rfl, rfl, rfl, rfl, rfl, rfl, rfl, rfl⟩
  · exact .inl (sameOperation_flagError c s)
  · exact .inr ⟨hb, access_starts_operation h hb (by rw [hd]; rfl)⟩

/-- A host access leaves `ERR` and `ECODE` alone or records an error (R201). -/
theorem access_errors {w : BusWord} {s t : State} (h : turn (.access w) s = .next t) :
    (t.err = s.err ∧ t.ecode = s.ecode) ∨ ∃ c, t = flagError c s := by
  obtain ⟨u, hu, hc⟩ := access_cases w s
  obtain rfl : u = t := Host.Outcome.next.inj (hu.symm.trans h)
  obtain ⟨v, rfl⟩ | ⟨i, v, rfl⟩ | ⟨i, v, rfl⟩ | ⟨c, rfl⟩ | ⟨-, d, rfl⟩ := hc
  · exact .inl ⟨rfl, rfl⟩
  · exact .inl ⟨rfl, rfl⟩
  · exact .inl ⟨rfl, rfl⟩
  · exact .inr ⟨c, rfl⟩
  · exact .inl ⟨acceptCommand_err d s, acceptCommand_ecode d s⟩

/-- Everything a turn of CORE that answers a next state can have done: `turn_cases` without its other turns. -/
theorem core_cases {s t : State} (h : turn .core s = .next t) :
    (s.busy = false ∧ t = s) ∨
    (s.busy = true ∧ s.upc = 50 ∧ t = storeResult s) ∨
    (s.busy = true ∧ ∃ hu : s.upc.toNat ≤ 9, t = expandRound (s.upc.toNat + 1) (by omega) s) ∨
    (s.busy = true ∧ 10 ≤ s.upc.toNat ∧ s.upc.toNat ≤ 49 ∧
      ∃ i f, progInstr s.dir s.upc.toNat = some i ∧ t = updateSt f s ∧
        ∀ K, (∀ j : Fin 11, s.rk[j.val] = roundKey K j.val) → f s.st = microOnSt K i s.st) := by
  obtain ⟨he, -⟩ | ⟨w, he, -⟩ | ⟨-, hc⟩ | ⟨-, hc⟩ | ⟨-, hc⟩ | ⟨-, hc⟩ := turn_cases .core s t h
  · cases he
  · cases he
  · exact .inl hc
  · exact .inr (.inl hc)
  · exact .inr (.inr (.inl hc))
  · exact .inr (.inr (.inr hc))

/-- Settles O41: by the four things a turn of CORE can do. -/
theorem coreNeverWritesHostRegisters : Obligations.CoreNeverWritesHostRegisters := by
  intro s t h
  obtain ⟨-, rfl⟩ | ⟨-, -, rfl⟩ | ⟨-, -, rfl⟩ | ⟨-, -, -, i, f, -, rfl, -⟩ := core_cases h
  · simp
  · simp
  · simp
  · simp

/-! ### `ST` during an operation, and the block functions -/

section stAfter

variable (d : Direction) (P K : Block)

theorem stAfter_succ {d : Direction} {n : Nat} {i : Instr} (h : progInstr d n = some i) :
    stAfter d P K (n + 1) = microOnSt K i (stAfter d P K n) := by simp [stAfter, h]

/-- The key expansion leaves `ST` as the command loaded it. -/
theorem stAfter_keyExpansion {n : Nat} (h : n ≤ 10) : stAfter d P K n = transpose P := by
  induction n with
  | zero => rfl
  | succ n ih =>
    obtain ⟨h50, -⟩ | ⟨-, hp⟩ | ⟨h10, -⟩ := progInstr_cases d n (by omega)
    · omega
    · rw [stAfter_succ P K hp]
      exact ih (by omega)
    · omega

/-- The rounds 1 to 9 of `ENC` stand one after another from position 11 (R179). -/
theorem progInstr_encRound : ∀ r < 9, progInstr .enc (11 + 4 * r) = some .sub ∧
    progInstr .enc (11 + 4 * r + 1) = some .shr ∧ progInstr .enc (11 + 4 * r + 2) = some .mix ∧
    progInstr .enc (11 + 4 * r + 3) = some (.ark (BitVec.ofNat 4 (r + 1))) := by decide +kernel

/-- The rounds 9 to 1 of `DEC` stand one after another from position 13 (R180). -/
theorem progInstr_decRound : ∀ r < 9, progInstr .dec (13 + 4 * r) = some (.ark (BitVec.ofNat 4 (9 - r))) ∧
    progInstr .dec (13 + 4 * r + 1) = some .imix ∧ progInstr .dec (13 + 4 * r + 2) = some .ishr ∧
    progInstr .dec (13 + 4 * r + 3) = some .isub := by decide +kernel

theorem stAfter_encRound {r : Nat} (h : r < 9) :
    stAfter .enc P K (11 + 4 * (r + 1)) = encryptRound K (stAfter .enc P K (11 + 4 * r)) (r + 1) := by
  obtain ⟨h0, h1, h2, h3⟩ := progInstr_encRound r h
  have hr : (BitVec.ofNat 4 (r + 1)).toNat = r + 1 := by simp; omega
  calc stAfter .enc P K (11 + 4 * r + 4)
      = addRoundKey (stAfter .enc P K (11 + 4 * r + 3)) (roundKey K (r + 1)) := by
        rw [stAfter_succ P K h3, microOnSt, hr]
    _ = encryptRound K (stAfter .enc P K (11 + 4 * r)) (r + 1) := by
        rw [stAfter_succ P K h2, stAfter_succ P K h1, stAfter_succ P K h0]
        rfl

theorem stAfter_decRound {r : Nat} (h : r < 9) :
    stAfter .dec P K (13 + 4 * (r + 1)) = decryptRound K (stAfter .dec P K (13 + 4 * r)) (9 - r) := by
  obtain ⟨h0, h1, h2, h3⟩ := progInstr_decRound r h
  have hr : (BitVec.ofNat 4 (9 - r)).toNat = 9 - r := by simp; omega
  calc stAfter .dec P K (13 + 4 * r + 4)
      = invSubBytes (invShiftRows (invMixColumns (stAfter .dec P K (13 + 4 * r + 1)))) := by
        rw [stAfter_succ P K h3, stAfter_succ P K h2, stAfter_succ P K h1]
        rfl
    _ = decryptRound K (stAfter .dec P K (13 + 4 * r)) (9 - r) := by
        rw [stAfter_succ P K h0, microOnSt, hr]
        rfl

/-- `ST` before round `n + 1` of `ENC`. -/
theorem stAfter_encRounds {n : Nat} (h : n ≤ 9) : stAfter .enc P K (11 + 4 * n) =
    (List.range n).foldl (fun S r => encryptRound K S (r + 1)) (stAfter .enc P K 11) := by
  induction n with
  | zero => rfl
  | succ n ih => simp [List.range_succ, stAfter_encRound P K h, ih (by omega)]

/-- `ST` before round `9 - n` of `DEC`. -/
theorem stAfter_decRounds {n : Nat} (h : n ≤ 9) : stAfter .dec P K (13 + 4 * n) =
    (List.range n).foldl (fun S r => decryptRound K S (9 - r)) (stAfter .dec P K 13) := by
  induction n with
  | zero => rfl
  | succ n ih => simp [List.range_succ, stAfter_decRound P K h, ih (by omega)]

/-- What `STO` stores at the end of an encryption (R171). -/
theorem transpose_stAfter_enc : transpose (stAfter .enc P K 50) = encryptBlock P K := by
  have first : stAfter .enc P K 11 = addRoundKey (transpose P) (roundKey K 0) := by
    rw [stAfter_succ P K (show progInstr .enc 10 = some (.ark 0) by decide),
      stAfter_keyExpansion .enc P K le_rfl]
    rfl
  have last : stAfter .enc P K 50 =
      addRoundKey (shiftRows (subBytes (stAfter .enc P K 47))) (roundKey K 10) := by
    rw [stAfter_succ P K (show progInstr .enc 49 = some (.ark 10) by decide),
      stAfter_succ P K (show progInstr .enc 48 = some .shr by decide),
      stAfter_succ P K (show progInstr .enc 47 = some .sub by decide)]
    rfl
  rw [last, stAfter_encRounds P K (n := 9) le_rfl, first, encryptBlock]
  simp [List.range_succ]

/-- What `STO` stores at the end of a decryption (R172). -/
theorem transpose_stAfter_dec : transpose (stAfter .dec P K 50) = decryptBlock P K := by
  have first : stAfter .dec P K 13 =
      invSubBytes (invShiftRows (addRoundKey (transpose P) (roundKey K 10))) := by
    rw [stAfter_succ P K (show progInstr .dec 12 = some .isub by decide),
      stAfter_succ P K (show progInstr .dec 11 = some .ishr by decide),
      stAfter_succ P K (show progInstr .dec 10 = some (.ark 10) by decide),
      stAfter_keyExpansion .dec P K le_rfl]
    rfl
  have last : stAfter .dec P K 50 = addRoundKey (stAfter .dec P K 49) (roundKey K 0) := by
    rw [stAfter_succ P K (show progInstr .dec 49 = some (.ark 0) by decide)]
    rfl
  rw [last, stAfter_decRounds P K (n := 9) le_rfl, first, decryptBlock]
  simp [List.range_succ]

/-- An operation ends with its block function's value in `ST` (R187). -/
theorem transpose_stAfter : transpose (stAfter d P K 50) = blockFunction d P K := by
  cases d with
  | enc => exact transpose_stAfter_enc P K
  | dec => exact transpose_stAfter_dec P K

end stAfter

/-! ### The invariant of R40 under each move -/

theorem upc_succ {n : BitVec 6} (h : n.toNat ≤ 49) : (n + 1).toNat = n.toNat + 1 := by
  have h1 : (1 : BitVec 6).toNat = 1 := rfl
  rw [BitVec.toNat_add, h1]
  omega

theorem rcon_succ {j : Nat} (h : 1 ≤ j) : rcon (j + 1) = xtime (rcon j) := by
  obtain ⟨k, rfl⟩ := Nat.exists_eq_add_of_le' h
  rfl

section OperationInv

variable {s t : State} {P K : Block}

theorem OperationInv.of_sameOperation (h : OperationInv s P K) (e : SameOperation s t) :
    OperationInv t P K where
  idle := by rw [e.busy, e.upc]; exact h.idle
  running := by rw [e.busy, e.done, e.upc]; exact h.running
  keys := by rw [e.busy, e.upc, e.rk]; exact h.keys
  constant := by rw [e.busy, e.rc, e.upc]; exact h.constant
  working := by rw [e.busy, e.st, e.dir, e.upc]; exact h.working
  result := by rw [e.done, e.dout, e.dir]; exact h.result

theorem operationInv_acceptCommand (d : Direction) (s : State) :
    OperationInv (acceptCommand d s) s.din s.key where
  idle hb := by cases hb
  running _ := by simp
  keys _ j hj := by
    obtain rfl : j = 0 := Fin.ext (by simpa using hj)
    simp [roundKey]
  constant _ := rfl
  working _ := rfl
  result hd := by cases hd

theorem operationInv_applyReset (s : State) (P K : Block) : OperationInv (applyReset s) P K where
  idle _ := rfl
  running hb := by cases hb
  keys hb := by cases hb
  constant hb := by cases hb
  working hb := by cases hb
  result hd := by cases hd

/-- `KXR` at position `n` writes round key `n + 1` and the next round constant (R157). -/
theorem OperationInv.expandRound (h : OperationInv s P K) (hb : s.busy = true) (hu : s.upc.toNat ≤ 9) :
    OperationInv (expandRound (s.upc.toNat + 1) (by omega) s) P K where
  idle hi := by simp [hb] at hi
  running _ := ⟨(h.running hb).1, by rw [expandRound_upc, upc_succ (by omega)]; omega⟩
  keys _ j hj := by
    rw [expandRound_upc, upc_succ (by omega)] at hj
    rw [expandRound_rk, Vector.getElem_set]
    split
    · next heq =>
      have hkey : s.rk[s.upc.toNat] = roundKey K s.upc.toNat := h.keys hb ⟨s.upc.toNat, by omega⟩ le_rfl
      have hmin : min s.upc.toNat 10 = s.upc.toNat := by omega
      simp only [← heq, roundKey, Nat.add_sub_cancel, hkey, h.constant hb, hmin]
    · exact h.keys hb j (by omega)
  constant _ := by
    have hmin : min (s.upc.toNat + 1) 10 = min s.upc.toNat 10 + 1 := by omega
    rw [expandRound_rc, expandRound_upc, upc_succ (by omega), hmin, rcon_succ (by omega), h.constant hb]
  working _ := by
    rw [expandRound_st, expandRound_dir, expandRound_upc, upc_succ (by omega),
      stAfter_keyExpansion _ P K (by omega), h.working hb, stAfter_keyExpansion _ P K (by omega)]
  result hd := by simp [(h.running hb).1] at hd

/-- A micro-operation on `ST` at a position past the key expansion. -/
theorem OperationInv.updateSt (h : OperationInv s P K) (hb : s.busy = true) (h10 : 10 ≤ s.upc.toNat)
    (h49 : s.upc.toNat ≤ 49) {i : Instr} {f : Block → Block} (hi : progInstr s.dir s.upc.toNat = some i)
    (hf : f s.st = microOnSt K i s.st) : OperationInv (updateSt f s) P K where
  idle hidle := by simp [hb] at hidle
  running _ := ⟨(h.running hb).1, by rw [updateSt_upc, upc_succ h49]; omega⟩
  keys _ j _ := h.keys hb j (by omega)
  constant _ := by
    have hmin : min (s.upc.toNat + 1) 10 = min s.upc.toNat 10 := by omega
    rw [updateSt_rc, updateSt_upc, upc_succ h49, hmin, h.constant hb]
  working _ := by
    rw [updateSt_st, updateSt_dir, updateSt_upc, upc_succ h49, stAfter_succ P K hi, hf, h.working hb]
  result hd := by simp [(h.running hb).1] at hd

/-- `STO` ends the operation with the block function's value in `DOUT` (R186). -/
theorem OperationInv.storeResult (h : OperationInv s P K) (hb : s.busy = true) (hu : s.upc = 50) :
    OperationInv (storeResult s) P K where
  idle _ := rfl
  running hb' := by cases hb'
  keys hb' := by cases hb'
  constant hb' := by cases hb'
  working hb' := by cases hb'
  result _ := by
    rw [storeResult_dout, storeResult_dir, h.working hb, hu]
    exact transpose_stAfter s.dir P K

/-- A turn of CORE keeps the invariant for the same operands. -/
theorem OperationInv.core (h : OperationInv s P K) (ht : turn .core s = .next t) : OperationInv t P K := by
  obtain ⟨-, rfl⟩ | ⟨hb, hu, rfl⟩ | ⟨hb, hu, rfl⟩ | ⟨hb, h10, h49, i, f, hi, rfl, hf⟩ := core_cases ht
  · exact h
  · exact h.storeResult hb hu
  · exact h.expandRound hb hu
  · exact h.updateSt hb h10 h49 hi (hf K fun j => h.keys hb j (by omega))

/-- A turn that is no accepted command keeps the invariant for the same operands. -/
theorem OperationInv.turn (h : OperationInv s P K) {e : Event} (ht : turn e s = .next t)
    (hn : ¬ (s.busy = false ∧ ∃ d, e = .access (commandWord d))) : OperationInv t P K := by
  cases e with
  | reset =>
    cases ht
    exact operationInv_applyReset s P K
  | core => exact h.core ht
  | access w =>
    obtain hsame | ⟨hb, d, rfl, -⟩ := access_sameOperation_or_accepts ht
    · exact h.of_sameOperation hsame
    · exact absurd ⟨hb, d, rfl⟩ hn

end OperationInv

/-- The codes that `ECODE` records are not 0 (R205). -/
theorem ErrorCause.code_ne_zero (c : ErrorCause) : c.code ≠ 0 := by cases c <;> decide

/-- R40 (c), for every turn. -/
theorem turn_keeps_errors {e : Event} {s t : State} (ht : turn e s = .next t)
    (h : s.err = false ↔ s.ecode = 0) : t.err = false ↔ t.ecode = 0 := by
  cases e with
  | reset =>
    cases ht
    simp
  | core =>
    obtain ⟨-, -, -, herr, hcode, -⟩ := coreNeverWritesHostRegisters s t ht
    rw [herr, hcode]
    exact h
  | access w =>
    obtain ⟨herr, hcode⟩ | ⟨c, rfl⟩ := access_errors ht
    · rw [herr, hcode]
      exact h
    · cases hs : s.err with
      | false =>
        have hcode : (flagError c s).ecode = c.code := by simp [hs]
        rw [hcode, flagError_err]
        exact iff_of_false (by decide) c.code_ne_zero
      | true => simpa [hs] using h

/-- An idle core accepts either command word (R173). -/
theorem acceptsNext_iff (s : State) :
    acceptsNext s = true ↔ s.busy = false ∧ ∃ d, nextEvent s = .access (commandWord d) := by
  have hd : (∃ d, nextEvent s = .access (commandWord d)) ↔
      nextEvent s = .access (commandWord .enc) ∨ nextEvent s = .access (commandWord .dec) :=
    ⟨fun ⟨d, h⟩ => by cases d; exacts [.inl h, .inr h], fun h => h.elim (⟨_, ·⟩) (⟨_, ·⟩)⟩
  simp [acceptsNext, hd]

theorem sameOperation_dropEvent (s : State) : SameOperation s (dropEvent s) :=
  ⟨rfl, rfl, rfl, rfl, rfl, rfl, rfl, rfl⟩

/-- A step keeps the part of the invariant about an operation. -/
theorem step_keeps_operationInv {s t : State} {P K : Block} (h : OperationInv s P K) (ht : step s = .next t) :
    OperationInv t (blockAfter s P) (keyAfter s K) := by
  have hturn : turn (nextEvent s) (dropEvent s) = .next t := ht
  by_cases hacc : acceptsNext s = true
  · obtain ⟨hb, d, hd⟩ := (acceptsNext_iff s).mp hacc
    rw [hd, turn_command (dropEvent s) d hb] at hturn
    cases hturn
    rw [blockAfter, keyAfter, if_pos hacc, if_pos hacc]
    exact operationInv_acceptCommand d (dropEvent s)
  · rw [blockAfter, keyAfter, if_neg hacc, if_neg hacc]
    exact (h.of_sameOperation (sameOperation_dropEvent s)).turn hturn
      (fun hc => hacc ((acceptsNext_iff s).mpr hc))

/-- Settles O5: the part about an operation by the moves of each turn, with the operands of an accepted command
taken over; the error clause by what a turn does to the error flags. -/
theorem stepKeepsR40 : Obligations.StepKeepsR40 := by
  intro s t P K h ht
  have hturn : turn (nextEvent s) (dropEvent s) = .next t := ht
  exact ⟨step_keeps_operationInv h.operation ht, turn_keeps_errors hturn h.errors⟩

/-- Settles O4: the reset of the reset state is itself. -/
theorem resetMeetsR40 : Obligations.ResetMeetsR40 := fun P K =>
  ⟨operationInv_applyReset State.reset P K, by decide⟩

/-! ### Frames of whole turns -/

/-- Settles O40: an access leaves the operation alone or accepts a command, and of CORE's moves only `STO`
writes `DOUT`. -/
theorem onlyStoWritesDout : Obligations.OnlyStoWritesDout := by
  intro s t e he ht hsto
  cases e with
  | reset => exact absurd rfl he
  | access w =>
    obtain hsame | ⟨-, d, -, rfl⟩ := access_sameOperation_or_accepts ht
    · exact hsame.dout
    · exact acceptCommand_dout d s
  | core =>
    obtain ⟨-, rfl⟩ | ⟨hb, hu, -⟩ | ⟨-, -, rfl⟩ | ⟨-, -, -, i, f, -, rfl, -⟩ := core_cases ht
    · rfl
    · exact absurd ⟨rfl, hb, hu⟩ hsto
    · exact expandRound_dout _ _ s
    · exact updateSt_dout f s

/-- Settles O44: an access leaves the flags alone or records an error, which keeps an error already recorded;
CORE never writes them (O41). -/
theorem errorIsSticky : Obligations.ErrorIsSticky := by
  intro s t e he ht
  cases e with
  | reset => exact absurd rfl he
  | access w =>
    refine ⟨fun hs => ?_, fun _ _ => ⟨w, rfl⟩⟩
    obtain ⟨herr, hcode⟩ | ⟨c, rfl⟩ := access_errors ht
    · exact ⟨herr.trans hs, hcode⟩
    · simp [hs]
  | core =>
    obtain ⟨-, -, -, herr, hcode, -⟩ := coreNeverWritesHostRegisters s t ht
    exact ⟨fun hs => ⟨herr.trans hs, hcode⟩, fun hs ht' => by simp [herr, hs] at ht'⟩

/-- Settles O47: an access leaves the operation alone or accepts a command, and of CORE's moves only `STO`
writes `BUSY` and `DONE`. -/
theorem acceptedCommandIsBusyOrDone : Obligations.AcceptedCommandIsBusyOrDone := by
  intro s t e he ht
  cases e with
  | reset => exact absurd rfl he
  | access w =>
    obtain hsame | ⟨hb, d, rfl, rfl⟩ := access_sameOperation_or_accepts ht
    · exact ⟨fun hb => .inl ⟨hsame.busy.trans hb, hsame.done⟩, fun hb => .inl ⟨hsame.busy.trans hb, hsame.done⟩⟩
    · exact ⟨fun hb' => by simp [hb] at hb', fun _ => .inr ⟨rfl, rfl, d, rfl⟩⟩
  | core =>
    obtain ⟨hb, rfl⟩ | ⟨hb, hu, rfl⟩ | ⟨hb, -, rfl⟩ | ⟨hb, -, -, i, f, -, rfl, -⟩ := core_cases ht
    · exact ⟨fun hb => .inl ⟨hb, rfl⟩, fun hb => .inl ⟨hb, rfl⟩⟩
    · exact ⟨fun _ => .inr ⟨rfl, hu, rfl, rfl⟩, fun hb' => by simp [hb] at hb'⟩
    · exact ⟨fun _ => .inl ⟨hb, rfl⟩, fun hb' => by simp [hb] at hb'⟩
    · exact ⟨fun _ => .inl ⟨hb, rfl⟩, fun hb' => by simp [hb] at hb'⟩

/-! ### Two states that differ in `ERR`, `ECODE` and what HOST has received (R32) -/

/-- The state with other error flags and other bytes received. -/
def withErrors (err : Bool) (ecode : BitVec 2) (reads : List Byte) (s : State) : State :=
  { s with err := err, ecode := ecode, hostReads := reads }

/-- Two outcomes that agree but for the error flags and the bytes received. -/
def SameOutcomeButErrors : Result → Result → Prop
  | .next t₁, r => ∃ t₂, r = .next t₂ ∧ SameButErrors t₁ t₂
  | .fault f, r => r = .fault f
  | .refused f, r => r = .refused f

section ErrorFlags

variable {s₁ s₂ : State}

/-- States that agree but for the errors are the same state with other errors. -/
theorem SameButErrors.exists_eq (h : SameButErrors s₁ s₂) :
    ∃ err ecode reads, s₂ = withErrors err ecode reads s₁ := ⟨_, _, _, h⟩

theorem sameButErrors_flagError (h : SameButErrors s₁ s₂) (c : ErrorCause) :
    SameButErrors (flagError c s₁) (flagError c s₂) := by
  obtain ⟨err, ecode, reads, rfl⟩ := h.exists_eq
  rw [flagError_eq, flagError_eq]
  rfl

theorem sameButErrors_hostCommand (h : SameButErrors s₁ s₂) (d : Direction) :
    SameButErrors (hostCommand d s₁) (hostCommand d s₂) := by
  obtain ⟨err, ecode, reads, rfl⟩ := h.exists_eq
  cases hb : s₁.busy with
  | true =>
    rw [hostCommand_busy d s₁ hb, hostCommand_busy d (withErrors err ecode reads s₁) hb]
    exact sameButErrors_flagError h .busy
  | false =>
    rw [hostCommand_idle d s₁ hb, hostCommand_idle d (withErrors err ecode reads s₁) hb]
    rfl

theorem sameButErrors_regWrite (h : SameButErrors s₁ s₂) (a : Addr) (v : Byte) :
    SameButErrors (regWrite a v s₁) (regWrite a v s₂) := by
  obtain ⟨err, ecode, reads, rfl⟩ := h.exists_eq
  unfold regWrite
  cases region a with
  | key i => rfl
  | din i => rfl
  | dout i => exact sameButErrors_flagError h .write
  | status => exact sameButErrors_flagError h .write
  | reserved => exact sameButErrors_flagError h .write
  | ctrl =>
    simp only [writeCtrl]
    split
    · exact sameButErrors_hostCommand h .enc
    · split
      · exact sameButErrors_hostCommand h .dec
      · exact sameButErrors_flagError h .cmd

/-- No instruction reads the error flags but to record an error or to return them to HOST. -/
theorem sameButErrors_exec (h : SameButErrors s₁ s₂) (i : Instr) :
    SameOutcomeButErrors (exec i s₁) (exec i s₂) := by
  cases i with
  | wr a v => exact ⟨_, rfl, sameButErrors_regWrite h a v⟩
  | enc => exact ⟨_, rfl, sameButErrors_hostCommand h .enc⟩
  | dec => exact ⟨_, rfl, sameButErrors_hostCommand h .dec⟩
  | kxr r =>
    obtain ⟨err, ecode, reads, rfl⟩ := h.exists_eq
    simp only [exec, execKxr]
    split
    · exact ⟨_, rfl, rfl⟩
    · exact rfl
  | ark r =>
    obtain ⟨err, ecode, reads, rfl⟩ := h.exists_eq
    simp only [exec, execArk]
    split
    · exact ⟨_, rfl, rfl⟩
    · exact rfl
  | _ =>
    obtain ⟨err, ecode, reads, rfl⟩ := h.exists_eq
    exact ⟨_, rfl, rfl⟩

/-- The error flags decide neither whether CORE steps nor which micro-operation it performs. -/
theorem sameButErrors_coreTurn (h : SameButErrors s₁ s₂) :
    SameOutcomeButErrors (coreTurn s₁) (coreTurn s₂) := by
  have hbusy : s₂.busy = s₁.busy := by rw [h]
  have hfetch : fetchMicro s₂ = fetchMicro s₁ := by rw [h]; rfl
  simp only [coreTurn, hbusy, hfetch]
  split
  · cases fetchMicro s₁ with
    | ok i => exact sameButErrors_exec h i
    | error f => exact rfl
  · exact ⟨s₂, rfl, h⟩

theorem sameButErrors_turn (h : SameButErrors s₁ s₂) (e : Event) :
    SameOutcomeButErrors (turn e s₁) (turn e s₂) := by
  cases e with
  | access w => exact sameButErrors_exec h (decodeB w)
  | core => exact sameButErrors_coreTurn h
  | reset =>
    obtain ⟨err, ecode, reads, rfl⟩ := h.exists_eq
    exact ⟨_, rfl, rfl⟩

theorem sameButErrors_step (h : SameButErrors s₁ s₂) : SameOutcomeButErrors (step s₁) (step s₂) := by
  obtain ⟨err, ecode, reads, rfl⟩ := h.exists_eq
  have hdrop : SameButErrors (dropEvent s₁) (dropEvent (withErrors err ecode reads s₁)) := rfl
  exact sameButErrors_turn hdrop (nextEvent s₁)

end ErrorFlags

/-- Settles O43: every turn takes two states that agree but for the errors to outcomes that do. -/
theorem errorFlagsAffectNothingElse : Obligations.ErrorFlagsAffectNothingElse := by
  intro s₁ s₂ h
  have hstep := sameButErrors_step h
  refine ⟨fun t₁ ht => ?_, fun f hf => ?_⟩
  · rw [ht] at hstep
    exact hstep
  · rw [hf] at hstep
    exact hstep

/-! ### Reset -/

theorem zeroBlock_get (i : Nat) (h : i < 16) : zeroBlock[i] = 0x00 := by simp [zeroBlock]

theorem status_applyReset (s : State) : status (applyReset s) = 0x00 := by simp [status, flagByte, Direction.bit]

/-- After a reset every address reads 0x00 (R230). -/
theorem regRead_applyReset (s : State) (a : Addr) : regRead (applyReset s) a = 0x00 := by
  unfold regRead
  cases region a with
  | key i => exact zeroBlock_get i i.isLt
  | din i => exact zeroBlock_get i i.isLt
  | dout i => exact zeroBlock_get i i.isLt
  | ctrl => rfl
  | status => exact status_applyReset s
  | reserved => rfl

/-- Settles O1: reset puts every element of R20 back to that of the reset state. -/
theorem resetZeroesTheCore : Obligations.ResetZeroesTheCore := by
  refine ⟨fun s => ⟨applyReset s, rfl, ?_, regRead_applyReset s, rfl, rfl, rfl⟩, ?_, ?_,
    rfl, rfl, rfl, rfl, rfl, rfl, rfl⟩
  · exact ⟨rfl, rfl, rfl, rfl, rfl, rfl, rfl, rfl, rfl, rfl, rfl, rfl⟩
  · intro i h
    have hz := zeroBlock_get i h
    exact ⟨hz, hz, hz, hz⟩
  · intro r i hr hi
    have hrow : State.reset.rk[r] = zeroBlock := by simp [State.reset]
    rw [hrow]
    exact zeroBlock_get i hi

/-! ### The round index -/

/-- The position of the `ARK` that belongs to the round of position `n`: in `ENC` the last micro-operation of
the round, in `DEC` the first (R176, R179, R180). -/
def roundArk : Direction → Nat → Nat
  | .enc, n => if n ≤ 10 then 10 else if n ≤ 46 then 11 + 4 * ((n - 11) / 4) + 3 else 49
  | .dec, n => if n ≤ 12 then 10 else if n ≤ 48 then 13 + 4 * ((n - 13) / 4) else 49

theorem roundIndex_isSome (d : Direction) (n : Nat) : (roundIndex d n).isSome = true ↔ 10 ≤ n ∧ n ≤ 49 := by
  cases d
  all_goals
    unfold roundIndex
    split_ifs <;> simp <;> omega

/-- In the two listings (R179, R180) an `ARK` with the round index stands at `roundArk`, and no other `ARK`
between it and the position. -/
theorem roundArk_listing : ∀ d ∈ [Direction.enc, Direction.dec], ∀ n < 50, 10 ≤ n →
    (∃ r : BitVec 4, progInstr d (roundArk d n) = some (.ark r) ∧ roundIndex d n = some r.toNat) ∧
    ∀ k < 50, min n (roundArk d n) ≤ k → k ≤ max n (roundArk d n) → k ≠ roundArk d n →
      ∀ q : BitVec 4, progInstr d k ≠ some (.ark q) := by decide +kernel

theorem le_roundArk_enc {n : Nat} (h : n ≤ 49) : n ≤ roundArk .enc n := by
  simp only [roundArk]
  split_ifs <;> omega

theorem roundArk_enc_le (n : Nat) : roundArk .enc n ≤ 49 := by
  simp only [roundArk]
  split_ifs <;> omega

theorem roundArk_dec_le {n : Nat} (h : 10 ≤ n) : roundArk .dec n ≤ n := by
  simp only [roundArk]
  split_ifs <;> omega

/-- Settles O39: the `ARK` at `roundArk`, read off the listings. -/
theorem roundIndexIsTheArkOperand : Obligations.RoundIndexIsTheArkOperand := by
  refine ⟨roundIndex_isSome, fun n h10 h49 => ?_, fun n h10 h49 => ?_⟩
  · obtain ⟨⟨r, hark, hround⟩, hother⟩ := roundArk_listing .enc (by simp) n (by omega) h10
    have hle := le_roundArk_enc h49
    have hle49 := roundArk_enc_le n
    exact ⟨_, r, hle, hark, fun k h1 h2 => hother k (by omega) (by omega) (by omega) (by omega), hround⟩
  · obtain ⟨⟨r, hark, hround⟩, hother⟩ := roundArk_listing .dec (by simp) n (by omega) h10
    have hle := roundArk_dec_le h10
    exact ⟨_, r, hle, hark, fun k h1 h2 => hother k (by omega) (by omega) (by omega) (by omega), hround⟩

end Sys2Proof.Machine

/-! PROOFS for the statements about the register space and the turns (20_memory.md): which instruction a step
runs, what `RD` and `WR` do at each address, and that no host access reaches the hidden state. -/

namespace Sys2Proof.Machine

/-! ### Two states that differ in the hidden elements (R52) -/

/-- The two states agree but for the hidden elements and the turns to come. -/
def SameButHidden (s t : State) : Prop :=
  t = { s with st := t.st, rk := t.rk, rc := t.rc, upc := t.upc, schedule := t.schedule }

/-- To differ only in what HOST cannot see is to agree on everything visible and on the bytes received. -/
theorem sameButHidden_iff (s t : State) :
    SameButHidden s t ↔ SameVisible s t ∧ s.hostReads = t.hostReads := by
  constructor
  · intro h
    rw [h]
    exact ⟨⟨rfl, rfl, rfl, rfl, rfl, rfl, rfl, rfl⟩, rfl⟩
  · rintro ⟨⟨hkey, hdin, hdout, hbusy, hdone, hdir, herr, hecode⟩, hreads⟩
    rw [SameButHidden, hkey, hdin, hdout, hbusy, hdone, hdir, herr, hecode, hreads]

/-- The state with other hidden elements and other turns to come. -/
def withHidden (st : Block) (rk : Vector Block 11) (rc : Byte) (upc : BitVec 6) (schedule : List Event)
    (s : State) : State :=
  { s with st := st, rk := rk, rc := rc, upc := upc, schedule := schedule }

section SameButHidden

variable {s₁ s₂ : State}

/-- States that agree but for the hidden elements are the same state with other hidden elements. -/
theorem SameButHidden.exists_eq (h : SameButHidden s₁ s₂) :
    ∃ st rk rc upc schedule, s₂ = withHidden st rk rc upc schedule s₁ := ⟨_, _, _, _, _, h⟩

theorem sameButHidden_flagError (h : SameButHidden s₁ s₂) (c : ErrorCause) :
    SameButHidden (flagError c s₁) (flagError c s₂) := by
  obtain ⟨st, rk, rc, upc, schedule, rfl⟩ := h.exists_eq
  rw [flagError_eq, flagError_eq]
  rfl

/-- Only `BUSY`, which is visible, decides whether a command is accepted. -/
theorem sameButHidden_hostCommand (h : SameButHidden s₁ s₂) (d : Direction) :
    SameButHidden (hostCommand d s₁) (hostCommand d s₂) := by
  have hbusy : s₂.busy = s₁.busy := by rw [h]
  cases hb : s₁.busy with
  | true =>
    rw [hostCommand_busy d s₁ hb, hostCommand_busy d s₂ (hbusy.trans hb)]
    exact sameButHidden_flagError h .busy
  | false =>
    rw [hostCommand_idle d s₁ hb, hostCommand_idle d s₂ (hbusy.trans hb)]
    obtain ⟨st, rk, rc, upc, schedule, rfl⟩ := h.exists_eq
    rfl

theorem sameButHidden_regWrite (h : SameButHidden s₁ s₂) (a : Addr) (v : Byte) :
    SameButHidden (regWrite a v s₁) (regWrite a v s₂) := by
  unfold regWrite
  cases region a with
  | key i =>
    obtain ⟨st, rk, rc, upc, schedule, rfl⟩ := h.exists_eq
    rfl
  | din i =>
    obtain ⟨st, rk, rc, upc, schedule, rfl⟩ := h.exists_eq
    rfl
  | dout i => exact sameButHidden_flagError h .write
  | status => exact sameButHidden_flagError h .write
  | reserved => exact sameButHidden_flagError h .write
  | ctrl =>
    simp only [writeCtrl]
    split
    · exact sameButHidden_hostCommand h .enc
    · split
      · exact sameButHidden_hostCommand h .dec
      · exact sameButHidden_flagError h .cmd

/-- No address of the register map names a hidden element (R51, R52). -/
theorem regRead_eq_of_sameButHidden (h : SameButHidden s₁ s₂) (a : Addr) : regRead s₂ a = regRead s₁ a := by
  rw [h]
  unfold regRead
  cases region a <;> rfl

theorem sameButHidden_read (h : SameButHidden s₁ s₂) (a : Addr) :
    SameButHidden (deliver (regRead s₁ a) s₁) (deliver (regRead s₂ a) s₂) := by
  rw [regRead_eq_of_sameButHidden h]
  obtain ⟨st, rk, rc, upc, schedule, rfl⟩ := h.exists_eq
  rfl

/-- A host access neither reads a hidden element nor lets one decide what it does. -/
theorem sameButHidden_access (h : SameButHidden s₁ s₂) (w : BusWord) :
    ∃ t₁ t₂, turn (.access w) s₁ = .next t₁ ∧ turn (.access w) s₂ = .next t₂ ∧ SameButHidden t₁ t₂ := by
  simp only [turn]
  obtain hd | hd | ⟨a, hd⟩ | ⟨a, v, hd⟩ := decodeB_cases w
  · exact ⟨_, _, by rw [hd, exec_enc], by rw [hd, exec_enc], sameButHidden_hostCommand h .enc⟩
  · exact ⟨_, _, by rw [hd, exec_dec], by rw [hd, exec_dec], sameButHidden_hostCommand h .dec⟩
  · exact ⟨_, _, by rw [hd, exec_rd], by rw [hd, exec_rd], sameButHidden_read h a⟩
  · exact ⟨_, _, by rw [hd, exec_wr], by rw [hd, exec_wr], sameButHidden_regWrite h a v⟩

end SameButHidden

theorem SameOperation.sameHidden {s t : State} (h : SameOperation s t) : SameHidden s t :=
  ⟨h.st.symm, h.rk.symm, h.rc.symm, h.upc.symm⟩

/-- The command words are those of `ENC` and `DEC`. -/
theorem eq_enc_or_dec_of_eq_commandWord {w : BusWord} {d : Direction} (h : w = commandWord d) :
    w = commandWord .enc ∨ w = commandWord .dec := by
  cases d with
  | enc => exact .inl h
  | dec => exact .inr h

/-- Settles O42: an access leaves the operation alone or accepts a command, and it takes two states that agree
but for the hidden elements to two that do. -/
theorem hiddenStateIsOutOfReach : Obligations.HiddenStateIsOutOfReach := by
  refine ⟨fun s t w ht hn => ?_, fun s₁ s₂ w hv hr => ?_⟩
  · obtain hsame | ⟨hb, d, hw, -⟩ := access_sameOperation_or_accepts ht
    · exact hsame.sameHidden
    · exact absurd ⟨hb, eq_enc_or_dec_of_eq_commandWord hw⟩ hn
  · obtain ⟨t₁, t₂, h₁, h₂, ht⟩ := sameButHidden_access ((sameButHidden_iff s₁ s₂).mpr ⟨hv, hr⟩) w
    exact ⟨t₁, t₂, h₁, h₂, (sameButHidden_iff t₁ t₂).mp ht⟩

/-! ### Which instruction a step runs (R64, R174) -/

/-- CORE's turn is next when it is scheduled, and by default when nothing is. -/
theorem step_coreTurn {s : State} {rest : List Event}
    (h : s.schedule = .core :: rest ∨ s.schedule = [] ∧ rest = []) :
    step s = coreTurn (reschedule rest s) := by
  obtain h | ⟨h, rfl⟩ := h
  · exact step_cons s .core rest h
  · have hself : reschedule [] s = s := by rw [← h, reschedule_self]
    rw [step_nil s h, hself]

/-- The micro-operation at a position is the decoded word there. -/
theorem progInstr_of_decodeM {d : Direction} {n : Nat} {w : MicroWord} {i : Instr}
    (hw : uprog d n = some w) (hi : decodeM w = .ok i) : progInstr d n = some i := by
  simp [progInstr, hw, hi, Except.toOption]

/-- Settles O2: by whose turn is next. -/
theorem stepRunsTheDecodedInstruction : Obligations.StepRunsTheDecodedInstruction := by
  refine ⟨fun s w rest h => ?_, fun s w i rest h hb hw hi => ?_, fun s rest h hb => ?_, fun s rest h => ?_⟩
  · exact step_cons s (.access w) rest h
  · rw [step_coreTurn h]
    exact coreTurn_busy (reschedule rest s) i hb (progInstr_of_decodeM hw hi)
  · rw [step_coreTurn h]
    exact coreTurn_idle (reschedule rest s) hb
  · exact step_cons s .reset rest h

/-! ### What each address reads (R55) -/

/-- `STATUS` bit by bit (R31): bits 7:6 are 0, then `ECODE`, `ERR`, `DIR`, `DONE`, `BUSY`. -/
theorem status_eq_append (s : State) :
    status s = 0#2 ++ s.ecode ++ BitVec.ofBool s.err ++ BitVec.ofBool (s.dir == .dec) ++
      BitVec.ofBool s.done ++ BitVec.ofBool s.busy := by
  have flags : ∀ (busy done err : Bool) (ecode : BitVec 2), ∀ dir ∈ [Direction.enc, Direction.dec],
      flagByte busy ||| (flagByte done <<< 1) ||| (flagByte dir.bit <<< 2) ||| (flagByte err <<< 3) |||
        (ecode.setWidth 8 <<< 4) =
      0#2 ++ ecode ++ BitVec.ofBool err ++ BitVec.ofBool (dir == .dec) ++ BitVec.ofBool done ++
        BitVec.ofBool busy := by decide
  exact flags s.busy s.done s.err s.ecode s.dir (by cases s.dir <;> simp)

theorem regRead_key (s : State) (i : Nat) (h : i < 16) : regRead s (BitVec.ofNat 6 i) = s.key[i] := by
  simp only [regRead, region_key i h]

theorem regRead_din (s : State) (i : Nat) (h : i < 16) : regRead s (BitVec.ofNat 6 (0x10 + i)) = s.din[i] := by
  simp only [regRead, region_din i h]

theorem regRead_dout (s : State) (i : Nat) (h : i < 16) :
    regRead s (BitVec.ofNat 6 (0x20 + i)) = s.dout[i] := by
  simp only [regRead, region_dout i h]

theorem regRead_ctrl (s : State) : regRead s 0x30 = 0x00 := by simp [regRead]

theorem regRead_status (s : State) : regRead s 0x31 = status s := by simp [regRead]

theorem regRead_reserved (s : State) (a : Addr) (h : 0x32 ≤ a.toNat) : regRead s a = 0x00 := by
  simp [regRead, region_reserved a h]

/-- `RD` gives HOST the byte that the address reads and changes nothing else (R55, R57). -/
theorem exec_rd_of_regRead {s : State} {a : Addr} {v : Byte} (h : regRead s a = v) :
    exec (.rd a) s = .next { s with hostReads := s.hostReads ++ [v] } := by
  rw [exec_rd, h]
  rfl

/-- Settles O13: by what each address reads. -/
theorem readReturnsTheMappedByte : Obligations.ReadReturnsTheMappedByte := fun s =>
  ⟨fun i h => ⟨exec_rd_of_regRead (regRead_key s i h), exec_rd_of_regRead (regRead_din s i h),
      exec_rd_of_regRead (regRead_dout s i h)⟩,
    exec_rd_of_regRead (regRead_ctrl s),
    exec_rd_of_regRead ((regRead_status s).trans (status_eq_append s)),
    fun a h => exec_rd_of_regRead (regRead_reserved s a h)⟩

/-! ### What a write to `KEY` or `DIN` stores (R56) -/

section OperandByte

variable (s : State) (v : Byte) (i : Nat) (h : i < 16)

theorem regWrite_key : regWrite (BitVec.ofNat 6 i) v s = { s with key := s.key.set i v } := by
  simp only [regWrite, region_key i h]

theorem regWrite_din : regWrite (BitVec.ofNat 6 (0x10 + i)) v s = { s with din := s.din.set i v } := by
  simp only [regWrite, region_din i h]

/-- Only the address of a byte of `KEY` reads differently when that byte changes. -/
theorem regRead_set_key {a : Addr} (ha : a ≠ BitVec.ofNat 6 i) :
    regRead { s with key := s.key.set i v } a = regRead s a := by
  have hr : region a ≠ .key ⟨i, h⟩ := mt (region_eq_key a ⟨i, h⟩).mp ha
  unfold regRead
  cases hj : region a with
  | key j =>
    have hne : i ≠ j.val := fun hij => hr (hj.trans (congrArg Region.key (Fin.ext hij.symm)))
    exact Vector.getElem_set_ne h j.isLt hne
  | _ => rfl

/-- Only the address of a byte of `DIN` reads differently when that byte changes. -/
theorem regRead_set_din {a : Addr} (ha : a ≠ BitVec.ofNat 6 (0x10 + i)) :
    regRead { s with din := s.din.set i v } a = regRead s a := by
  have hr : region a ≠ .din ⟨i, h⟩ := mt (region_eq_din a ⟨i, h⟩).mp ha
  unfold regRead
  cases hj : region a with
  | din j =>
    have hne : i ≠ j.val := fun hij => hr (hj.trans (congrArg Region.din (Fin.ext hij.symm)))
    exact Vector.getElem_set_ne h j.isLt hne
  | _ => rfl

end OperandByte

/-- Settles O14: a write sets one byte of the register, and only the address written reads differently. -/
theorem writeStoresOneOperandByte : Obligations.WriteStoresOneOperandByte := by
  intro s v i h
  refine ⟨⟨{ s with key := s.key.set i v }, ?_, Vector.getElem_set_self h,
      fun j hj hne => Vector.getElem_set_ne h hj hne.symm, rfl, ?_, fun a ha => regRead_set_key s v i h ha⟩,
    ⟨{ s with din := s.din.set i v }, ?_, Vector.getElem_set_self h,
      fun j hj hne => Vector.getElem_set_ne h hj hne.symm, rfl, ?_, fun a ha => regRead_set_din s v i h ha⟩⟩
  · rw [exec_wr, regWrite_key s v i h]
  · rw [regRead_key _ i h]
    exact Vector.getElem_set_self h
  · rw [exec_wr, regWrite_din s v i h]
  · rw [regRead_din _ i h]
    exact Vector.getElem_set_self h

end Sys2Proof.Machine

/-! PROOFS for the statements about the encodings (30_encoding.md): decode and encode undo each other, the opcode
table, the 28 legal micro-operation words, and the pseudo-instructions of R89 as runs of accesses. -/

namespace Sys2Proof.Machine

/-! ### Decode and encode undo each other (R80 to R90) -/

/-- Settles O7: by the instruction, each with its own law in `Laws.DecodeEncode`. -/
theorem decodeOfEncode : Obligations.DecodeOfEncode := by
  intro i
  cases i with
  | rd a => exact Laws.DecodeEncode.rd a
  | wr a v => exact Laws.DecodeEncode.wr a v
  | enc => exact Laws.DecodeEncode.enc
  | dec => exact Laws.DecodeEncode.dec
  | kxr r => exact Laws.DecodeEncode.kxr r
  | ark r => exact Laws.DecodeEncode.ark r
  | sub => exact Laws.DecodeEncode.sub
  | isub => exact Laws.DecodeEncode.isub
  | shr => exact Laws.DecodeEncode.shr
  | ishr => exact Laws.DecodeEncode.ishr
  | mix => exact Laws.DecodeEncode.mix
  | imix => exact Laws.DecodeEncode.imix
  | sto => exact Laws.DecodeEncode.sto

/-- The micro-operations without operand, each with its word (R85). -/
def plainMicroWords : List (Instr × MicroWord) :=
  [(.sub, 0x30), (.isub, 0x40), (.shr, 0x50), (.ishr, 0x60), (.mix, 0x70), (.imix, 0x80), (.sto, 0x90)]

/-- An operation without operand is decoded only from the word of its `op` with `r` 0 (R83). -/
theorem noRound_eq_ok {w : MicroWord} {op : BitVec 4} {i j : Instr} (hop : microOp w = op)
    (h : noRound (microRound w) i = .ok j) : j = i ∧ microWord op 0 = w := by
  unfold noRound at h
  split at h
  · next hr =>
    cases h
    have hw := microWord_fields w
    rw [hop, hr] at hw
    exact ⟨rfl, hw⟩
  · cases h

/-- Everything the decoder of format M accepts, by the rows of R85 in order. -/
theorem decodeM_cases {w : MicroWord} {i : Instr} (h : decodeM w = .ok i) :
    (∃ r, Instr.legalKxr r = true ∧ i = .kxr r ∧ w = microWord 0x1 r) ∨
    (∃ r, Instr.legalArk r = true ∧ i = .ark r ∧ w = microWord 0x2 r) ∨ (i, w) ∈ plainMicroWords := by
  have fields {op : BitVec 4} (hop : microOp w = op) : w = microWord op (microRound w) := by
    rw [← hop, microWord_fields]
  have plain {op : BitVec 4} {j : Instr} (hop : microOp w = op) (hj : noRound (microRound w) j = .ok i)
      (hmem : (j, microWord op 0) ∈ plainMicroWords) : (i, w) ∈ plainMicroWords := by
    obtain ⟨rfl, rfl⟩ := noRound_eq_ok hop hj
    exact hmem
  unfold decodeM at h
  split at h
  · next hop =>
    split at h
    · next hlegal =>
      cases h
      exact .inl ⟨_, hlegal, rfl, fields hop⟩
    · cases h
  split at h
  · next hop =>
    split at h
    · next hlegal =>
      cases h
      exact .inr (.inl ⟨_, hlegal, rfl, fields hop⟩)
    · cases h
  refine .inr (.inr ?_)
  split_ifs at h with hsub hisub hshr hishr hmix himix hsto
  · exact plain hsub h (by decide)
  · exact plain hisub h (by decide)
  · exact plain hshr h (by decide)
  · exact plain hishr h (by decide)
  · exact plain hmix h (by decide)
  · exact plain himix h (by decide)
  · exact plain hsto h (by decide)

/-- A decoded micro-operation is well-formed and the word is its encoding. -/
theorem encode_of_decodeM {w : MicroWord} {i : Instr} (h : decodeM w = .ok i) :
    i.wf = true ∧ encode i = .micro w := by
  have plain : ∀ p ∈ plainMicroWords, p.1.wf = true ∧ encode p.1 = .micro p.2 := by decide
  obtain ⟨r, hr, rfl, rfl⟩ | ⟨r, hr, rfl, rfl⟩ | hmem := decodeM_cases h
  · exact ⟨hr, rfl⟩
  · exact ⟨hr, rfl⟩
  · exact plain _ hmem

/-- What a format-B word that is no command decodes to (R81, R90). -/
theorem decodeB_of_ne_command {w : BusWord} (henc : w ≠ 0x7001#15) (hdec : w ≠ 0x7002#15) :
    decodeB w = if busWe w then .wr (busAddr w) (busData w) else .rd (busAddr w) := by
  rw [decodeB, if_neg henc, if_neg hdec]

/-- Settles O8: format M by the rows of R85, format B by the two command words and then `we`. -/
theorem encodeOfDecode : Obligations.EncodeOfDecode := by
  refine ⟨fun w i => encode_of_decodeM, fun w => ?_⟩
  by_cases henc : w = 0x7001#15
  · subst henc
    decide
  by_cases hdec : w = 0x7002#15
  · subst hdec
    decide
  have hd := decodeB_of_ne_command henc hdec
  cases hwe : busWe w with
  | false =>
    rw [hwe, if_neg Bool.false_ne_true] at hd
    rw [hd]
    exact ⟨rfl, rfl⟩
  | true =>
    rw [hwe, if_pos rfl] at hd
    have hfields := busWord_fields w
    rw [hwe] at hfields
    rw [hd]
    exact ⟨by simpa [Instr.wf] using decodeB_not_command w _ _ hd, congrArg Encoded.bus hfields⟩

/-! ### The opcode table (R85) -/

/-- A row of the format-B part with the full mask matches its own word only. -/
theorem busRow_full (w : BusWord) (p : Nat) (hp : p < 2 ^ 15) :
    (w.toNat &&& 0x7FFF == p) = decide (w = BitVec.ofNat 15 p) := by
  have hmask : w.toNat &&& 0x7FFF = w.toNat := by
    rw [show 0x7FFF = 2 ^ 15 - 1 by decide, Nat.and_two_pow_sub_one_eq_mod, Nat.mod_eq_of_lt w.isLt]
  have heq : w = BitVec.ofNat 15 p ↔ w.toNat = p := by
    rw [← BitVec.toNat_inj, BitVec.toNat_ofNat, Nat.mod_eq_of_lt hp]
  rw [hmask, Bool.eq_iff_iff, beq_iff_eq, decide_eq_true_iff, heq]

/-- The mask of `WR` and `RD` selects `we`, bit 14. -/
theorem busRow_we (w : BusWord) : w.toNat &&& 0x4000 = if busWe w then 0x4000 else 0 := by
  rw [show 0x4000 = 2 ^ 14 by decide, Nat.and_two_pow]
  cases hwe : busWe w <;> simp_all [busWe, BitVec.getLsbD]

theorem firstRow_busTable (w : BusWord) : firstRow busTable w.toNat = some (decodeB w).mnemonic := by
  by_cases henc : w = 0x7001#15
  · subst henc
    decide
  by_cases hdec : w = 0x7002#15
  · subst hdec
    decide
  rw [decodeB_of_ne_command henc hdec]
  cases hwe : busWe w <;>
    simp [firstRow, busTable, List.find?, busRow_full, busRow_we, henc, hdec, hwe, Instr.mnemonic]

/-- A format-M word that decodes meets the row of its mnemonic first. -/
theorem firstRow_microTable {w : MicroWord} {i : Instr} (h : decodeM w = .ok i) :
    firstRow microTable w.toNat = some i.mnemonic := by
  have kxrRow : ∀ r, firstRow microTable (microWord 0x1 r).toNat = some "KXR" := by decide
  have arkRow : ∀ r, firstRow microTable (microWord 0x2 r).toNat = some "ARK" := by decide
  have plainRow : ∀ p ∈ plainMicroWords, firstRow microTable p.2.toNat = some p.1.mnemonic := by decide
  obtain ⟨r, -, rfl, rfl⟩ | ⟨r, -, rfl, rfl⟩ | hmem := decodeM_cases h
  · exact kxrRow r
  · exact arkRow r
  · exact plainRow _ hmem

/-- Settles O9: the two parts of the table row by row; a word determines its instruction because decoding gives it
back (O7). -/
theorem decodeFollowsTheOpcodeTable : Obligations.DecodeFollowsTheOpcodeTable := by
  refine ⟨firstRow_busTable, fun w i => firstRow_microTable, fun i j hi hj hij => ?_⟩
  have h : Except.ok i = (Except.ok j : Except Reject Instr) := by
    rw [← decodeOfEncode i hi, hij, decodeOfEncode j hj]
  exact Except.ok.inj h

/-! ### The legal micro-operation words and their positions (R85, R175) -/

/-- A micro-program has no word past position 50. -/
theorem le_of_uprog {d : Direction} {n : Nat} {w : MicroWord} (h : uprog d n = some w) : n ≤ 50 := by
  by_contra hn
  rw [uprog_past d n (by omega)] at h
  cases h

/-- A position that `positionOf` finds holds the word. -/
theorem uprog_of_positionOf {w : MicroWord} {d : Direction} {n : Nat} (h : positionOf w = some (d, n)) :
    uprog d n = some w := by simpa using List.find?_some h

/-- Every legal word stands in a micro-program. -/
theorem exists_positionOf {w : MicroWord} {i : Instr} (h : decodeM w = .ok i) :
    ∃ d n, positionOf w = some (d, n) := by
  have kxrPlace : ∀ r, Instr.legalKxr r = true → (positionOf (microWord 0x1 r)).isSome = true := by decide +kernel
  have arkPlace : ∀ r, Instr.legalArk r = true → (positionOf (microWord 0x2 r)).isSome = true := by decide +kernel
  have plainPlace : ∀ p ∈ plainMicroWords, (positionOf p.2).isSome = true := by decide +kernel
  have hsome : (positionOf w).isSome = true := by
    obtain ⟨r, hr, -, rfl⟩ | ⟨r, hr, -, rfl⟩ | hmem := decodeM_cases h
    · exact kxrPlace r hr
    · exact arkPlace r hr
    · exact plainPlace _ hmem
  obtain ⟨⟨d, n⟩, hp⟩ := Option.isSome_iff_exists.mp hsome
  exact ⟨d, n, hp⟩

/-- Every word of a micro-program is legal. -/
theorem exists_decodeM_of_uprog {d : Direction} {n : Nat} {w : MicroWord} (h : uprog d n = some w) :
    ∃ i, decodeM w = .ok i := by
  have hi : ∃ i, progInstr d n = some i := by
    obtain ⟨-, hi⟩ | ⟨-, hi⟩ | ⟨-, -, i, hi, -⟩ := progInstr_cases d n (le_of_uprog h)
    · exact ⟨_, hi⟩
    · exact ⟨_, hi⟩
    · exact ⟨_, hi⟩
  obtain ⟨i, hi⟩ := hi
  refine ⟨i, ?_⟩
  cases hd : decodeM w with
  | ok j => simpa [progInstr, h, hd, Except.toOption] using hi
  | error e => simp [progInstr, h, hd, Except.toOption] at hi

/-- The legal words as R85 lists them. -/
theorem decodeM_isSome_iff_listed : ∀ w : MicroWord, (decodeM w).toOption.isSome = true ↔
    (0x11 ≤ w.toNat ∧ w.toNat ≤ 0x1A) ∨ (0x20 ≤ w.toNat ∧ w.toNat ≤ 0x2A) ∨ w = 0x30 ∨ w = 0x40 ∨
      w = 0x50 ∨ w = 0x60 ∨ w = 0x70 ∨ w = 0x80 ∨ w = 0x90 := by decide

/-- Settles O10: the list by going through the 256 words; in both directions between word and position. -/
theorem legalMicroWordsAreThe28 : Obligations.LegalMicroWordsAreThe28 := by
  intro w
  refine ⟨?_, fun ⟨i, hi⟩ => ?_, fun ⟨d, n, h⟩ => exists_decodeM_of_uprog h⟩
  · rw [← decodeM_isSome_iff_listed w]
    cases decodeM w <;> simp [Except.toOption]
  · obtain ⟨d, n, hp⟩ := exists_positionOf hi
    exact ⟨d, n, uprog_of_positionOf hp⟩

/-- Settles O11: one word per mnemonic. -/
theorem sampleWordsDecode : Obligations.SampleWordsDecode := by
  unfold Obligations.SampleWordsDecode
  decide

/-! ### Commands and reserved rounds -/

/-- A command byte that decodes is the `wdata` of the command's format-B word (R82). -/
theorem decodeB_of_decodeC {v : Byte} {i : Instr} (h : decodeC v = .ok i) : decodeB (busWord 1 0x30 v) = i := by
  unfold decodeC at h
  split_ifs at h with henc hdec
  · cases h
    rw [henc]
    exact (congrArg decodeB encWord_fields.symm).trans decodeB_enc
  · cases h
    rw [hdec]
    exact (congrArg decodeB decWord_fields.symm).trans decodeB_dec

/-- Settles O12: the decoder tests the commands first, and a write to `CTRL` dispatches on the command byte. -/
theorem commandIsAWriteToCtrl : Obligations.CommandIsAWriteToCtrl :=
  ⟨fun _ => rfl, fun _ _ => decodeB_of_decodeC, encWord_fields.symm, decWord_fields.symm, decodeB_enc, decodeB_dec,
    fun s => ⟨by simp [regWrite, writeCtrl], by simp [regWrite, writeCtrl]⟩⟩

/-- Settles O24: by the range test of each of the two meanings (R86). -/
theorem illegalRoundStops : Obligations.IllegalRoundStops := by
  refine fun s r => ⟨fun h => ?_, fun h => ?_⟩
  · exact dif_neg (by omega)
  · exact dif_neg (by omega)

/-! ### Placing a word (log entry 13) -/

/-- A table word that gives an instruction is a word of a format, and that word decodes to it. -/
theorem decodeTableWord_eq_some {nbits w : Nat} {i : Instr} (h : decodeTableWord nbits w = some i) :
    ∃ e, encodedOfTable nbits w = some e ∧ decode e = .ok i := by
  unfold decodeTableWord at h
  cases he : encodedOfTable nbits w with
  | none => simp [he] at h
  | some e =>
    cases hd : decode e with
    | error r => simp [he, hd] at h
    | ok j => exact ⟨e, rfl, by simpa [he, hd] using h⟩

/-- At a position of a micro-program the next step performs the word that stands there (R174). -/
theorem step_atPosition {d : Direction} {n : Nat} {w : MicroWord} {i : Instr} (hw : uprog d n = some w)
    (hi : decodeM w = .ok i) (s : State) :
    step (atPosition d (BitVec.ofNat 6 n) s) =
      exec i { s with dir := d, upc := BitVec.ofNat 6 n, busy := true } := by
  have hupc : (BitVec.ofNat 6 n).toNat = n := by
    have hn := le_of_uprog hw
    rw [BitVec.toNat_ofNat]
    omega
  have hstep := step_coreTurn (s := atPosition d (BitVec.ofNat 6 n) s) (.inl rfl)
  exact hstep.trans (coreTurn_busy _ i rfl (by simpa [hupc] using progInstr_of_decodeM hw hi))

/-- Settles O3: a bus word is put at the head of the schedule; a micro-operation stands at the position that
`positionOf` finds, where CORE's turn performs it. -/
theorem fetchWordRunsNext : Obligations.FetchWordRunsNext := by
  intro s nbits w i h
  obtain ⟨e, he, hd⟩ := decodeTableWord_eq_some h
  rw [State.withFetchWord, he]
  cases e with
  | bus b =>
    cases hd
    exact ⟨s, step_cons _ (.access b) s.schedule rfl, rfl⟩
  | micro m =>
    obtain ⟨d, n, hp⟩ := exists_positionOf hd
    rw [placeWord, hp]
    exact ⟨_, step_atPosition (uprog_of_positionOf hp) hd s, rfl⟩

/-! ### The pseudo-instructions as accesses (R89) -/

/-- What HOST does for a list of bus instructions, given by index. -/
theorem hostEvents_ofFn {n : Nat} {f : Fin n → Instr} {g : Fin n → Event} (h : ∀ i, hostEvent (f i) = some (g i)) :
    hostEvents (List.ofFn f) = List.ofFn g := by
  have hfg : hostEvent ∘ f = some ∘ g := funext h
  rw [hostEvents, List.ofFn_eq_map, List.filterMap_map, hfg, ← List.filterMap_map, List.filterMap_some,
    List.ofFn_eq_map]

theorem hostEvents_append (is js : List Instr) : hostEvents (is ++ js) = hostEvents is ++ hostEvents js :=
  List.filterMap_append

/-- The access that writes byte `i` of `b` to the register whose bytes stand from the address `base` on. -/
def storeByte (base : Nat) (b : Block) (i : Fin 16) : Event :=
  .access (busWord 1 (BitVec.ofNat 6 (base + i.val)) b[i.val])

theorem hostEvents_ldkey (b : Block) : hostEvents (ldkey b) = List.ofFn (storeByte 0 b) :=
  hostEvents_ofFn fun i => by rw [storeByte, Nat.zero_add]; rfl

theorem hostEvents_ldblk (b : Block) : hostEvents (ldblk b) = List.ofFn (storeByte 0x10 b) :=
  hostEvents_ofFn fun _ => rfl

theorem storeByte_injective (base : Nat) (b : Block) : Function.Injective (storeByte base b) := by
  intro i j h
  obtain ⟨-, haddr, -⟩ := busWord_inj (Event.access.inj h)
  have hnat := congrArg BitVec.toNat haddr
  simp only [BitVec.toNat_ofNat] at hnat
  exact Fin.ext (by omega)

/-- A write below `CTRL` is no command (R82). -/
theorem isCommand_of_lt {n : Nat} (h : n < 0x30) (v : Byte) : Instr.isCommand (BitVec.ofNat 6 n) v = false := by
  have hne : BitVec.ofNat 6 n ≠ 0x30#6 := fun hc => by
    have hnat := congrArg BitVec.toNat hc
    simp only [BitVec.toNat_ofNat] at hnat
    omega
  simp [Instr.isCommand, hne]

/-- The access of a write that is no command performs the write. -/
theorem turn_wr {a : Addr} {v : Byte} (h : Instr.isCommand a v = false) (s : State) :
    turn (.access (busWord 1 a v)) s = .next (regWrite a v s) := by
  rw [turn, decodeB_wr a v h, exec_wr]

theorem turn_storeByte_key (b B : Block) (i : Fin 16) (s : State) :
    turn (storeByte 0 b i) { s with key := B } = .next { s with key := B.set i.val b[i.val] } := by
  rw [storeByte, Nat.zero_add, turn_wr (isCommand_of_lt (by omega) _), regWrite_key _ _ _ i.isLt]

theorem turn_storeByte_din (b B : Block) (i : Fin 16) (s : State) :
    turn (storeByte 0x10 b i) { s with din := B } = .next { s with din := B.set i.val b[i.val] } := by
  rw [storeByte, turn_wr (isCommand_of_lt (by omega) _), regWrite_din _ _ _ i.isLt]

/-! ### A register filled byte by byte -/

section Fill

variable {W : Fin 16 → Event} {put : Block → State} {b : Block}

/-- Turns that each store one byte of `b` leave `b` in the register once every byte that differs is stored. The
invariant of the induction: a byte not still to come is already right. -/
theorem drive_fill (hW : Function.Injective W)
    (hput : ∀ (B : Block) (i : Fin 16), turn (W i) (put B) = .next (put (B.set i.val b[i.val])))
    {es : List Event} (B : Block) (hes : ∀ e ∈ es, ∃ i, W i = e)
    (hall : ∀ i : Fin 16, W i ∈ es ∨ B[i.val] = b[i.val]) : drive es (put B) = .next (reschedule [] (put b)) := by
  induction es generalizing B with
  | nil =>
    have hB : B = b := Vector.ext fun i hi => (hall ⟨i, hi⟩).resolve_left List.not_mem_nil
    rw [drive_nil, hB]
  | cons e es ih =>
    obtain ⟨i, rfl⟩ := hes e List.mem_cons_self
    rw [drive_cons _ _ _ _ (hput B i)]
    refine ih _ (fun e he => hes e (List.mem_cons_of_mem _ he)) fun j => ?_
    by_cases hij : i = j
    · subst hij
      exact .inr (Vector.getElem_set_self i.isLt)
    · rw [Vector.getElem_set_ne i.isLt j.isLt (fun h => hij (Fin.ext h))]
      exact (hall j).imp_left fun hj =>
        (List.mem_cons.mp hj).resolve_left fun h => hij (hW h).symm

/-- The 16 turns in any order. -/
theorem drive_fill_perm (hW : Function.Injective W)
    (hput : ∀ (B : Block) (i : Fin 16), turn (W i) (put B) = .next (put (B.set i.val b[i.val])))
    {es : List Event} (B : Block) (hes : es.Perm (List.ofFn W)) :
    drive es (put B) = .next (reschedule [] (put b)) :=
  drive_fill hW hput B (fun _ he => List.mem_ofFn.mp (hes.mem_iff.mp he))
    fun i => .inl (hes.mem_iff.mpr (List.mem_ofFn.mpr ⟨i, rfl⟩))

end Fill

/-- Settles O17: each access stores one byte of its register, and the 16 of them store every byte. -/
theorem loadsFillTheRegisterInAnyOrder : Obligations.LoadsFillTheRegisterInAnyOrder := by
  refine fun s b es => ⟨fun hes => ?_, fun hes => ?_⟩
  · rw [hostEvents_ldkey] at hes
    exact drive_fill_perm (put := fun B => { s with key := B }) (storeByte_injective _ b)
      (fun B i => turn_storeByte_key b B i s) s.key hes
  · rw [hostEvents_ldblk] at hes
    exact drive_fill_perm (put := fun B => { s with din := B }) (storeByte_injective _ b)
      (fun B i => turn_storeByte_din b B i s) s.din hes

/-! ### A poll and `RDBLK` -/

theorem regRead_deliver (v : Byte) (s : State) (a : Addr) : regRead (deliver v s) a = regRead s a := by
  unfold regRead
  cases region a <;> rfl

/-- A run over reads delivers the bytes that the addresses read, in order, and changes nothing else (R57). -/
theorem drive_reads (as : List Addr) (s : State) : drive (hostEvents (as.map .rd)) s =
    .next { s with hostReads := s.hostReads ++ as.map (regRead s), schedule := [] } := by
  induction as generalizing s with
  | nil => simp [hostEvents, drive_nil, reschedule]
  | cons a as ih =>
    have hturn : turn (.access (busWord 0 a 0x00)) s = .next (deliver (regRead s a) s) := by
      rw [turn, decodeB_rd, exec_rd]
    have hreads : as.map (regRead (deliver (regRead s a) s)) = as.map (regRead s) :=
      List.map_congr_left fun a' _ => regRead_deliver _ s a'
    have hcons : hostEvents ((a :: as).map .rd) = .access (busWord 0 a 0x00) :: hostEvents (as.map .rd) := rfl
    rw [hcons, drive_cons _ _ _ _ hturn, ih, hreads, deliver_hostReads, List.append_assoc]
    rfl

/-- The addresses that a poll and `RDBLK` read: `STATUS`, then the bytes of `DOUT`. -/
def pollAndBlockAddrs : List Addr := 0x31 :: List.ofFn fun i : Fin 16 => BitVec.ofNat 6 (0x20 + i.val)

theorem poll_rdblk_eq_map : .rd 0x31 :: rdblk = pollAndBlockAddrs.map .rd := by
  simp [pollAndBlockAddrs, rdblk]

theorem regRead_pollAndBlockAddrs (s : State) :
    pollAndBlockAddrs.map (regRead s) = status s :: s.dout.toList := by
  rw [pollAndBlockAddrs, List.map_cons, regRead_status, List.map_ofFn]
  congr 1
  apply List.ext_getElem
  · rw [List.length_ofFn, Vector.length_toList]
  · intro i _ h
    rw [List.getElem_ofFn, Function.comp_apply, regRead_dout s i (by simpa using h), Vector.getElem_toList]

/-- A poll of `STATUS`, then `RDBLK`, gives HOST the status byte and the 16 bytes of `DOUT`. -/
theorem drive_poll_rdblk (s : State) : drive (hostEvents (.rd 0x31 :: rdblk)) s =
    .next { s with hostReads := s.hostReads ++ status s :: s.dout.toList, schedule := [] } := by
  rw [poll_rdblk_eq_map, drive_reads, regRead_pollAndBlockAddrs]

/-- Bit 1 of `STATUS` is `DONE` (R31). -/
theorem waitOver_status (s : State) : waitOver (status s) = s.done := by
  rw [waitOver, status_eq_append]
  simp only [BitVec.getLsbD_append]
  simp

/-! ### An operation run to its end -/

/-- A busy core short of position 50 advances one position and stays busy. -/
theorem coreTurn_advances {s : State} (hb : s.busy = true) (hu : s.upc.toNat ≤ 49) :
    ∃ t, turn .core s = .next t ∧ t.busy = true ∧ t.upc.toNat = s.upc.toNat + 1 := by
  obtain ⟨h50, -⟩ | ⟨_, hc⟩ | ⟨-, -, i, f, -, hc, -⟩ := coreTurn_cases s hb (by omega)
  · rw [h50] at hu
    exact absurd hu (by decide)
  · exact ⟨_, hc, hb, upc_succ hu⟩
  · exact ⟨_, hc, hb, upc_succ hu⟩

/-- At position 50 CORE's turn is `STO` (R186). -/
theorem coreTurn_stores {s : State} (hb : s.busy = true) (hu : s.upc.toNat = 50) :
    turn .core s = .next (storeResult s) := by
  obtain ⟨-, hc⟩ | ⟨h, -⟩ | ⟨-, h, -⟩ := coreTurn_cases s hb (by omega)
  · exact hc
  · omega
  · omega

/-- An operation with `n` turns left before `STO`, left to CORE alone, ends with its block function's value in
`DOUT` (R187). -/
theorem drive_core_completes {P K : Block} (n : Nat) {s : State} (h : OperationInv s P K) (hb : s.busy = true)
    (hn : s.upc.toNat + n = 50) : ∃ t, drive (List.replicate (n + 1) .core) s = .next t ∧ t.done = true ∧
      t.dout = blockFunction s.dir P K ∧ t.hostReads = s.hostReads := by
  induction n generalizing s with
  | zero =>
    have hsto := coreTurn_stores hb hn
    have hdout := (h.core hsto).result (storeResult_done s)
    have hrun : drive (List.replicate 1 .core) s = .next (reschedule [] (storeResult s)) := by
      rw [List.replicate_one, drive_cons .core [] s _ hsto, drive_nil]
    exact ⟨_, hrun, by simp, by simpa using hdout, by simp⟩
  | succ n ih =>
    obtain ⟨u, hu, hbu, hupc⟩ := coreTurn_advances hb (by omega)
    obtain ⟨-, -, hdir, -, -, hreads⟩ := coreNeverWritesHostRegisters s u hu
    obtain ⟨t, ht, hdone, hdout, hreads'⟩ := ih (h.core hu) hbu (by omega)
    rw [hdir] at hdout
    refine ⟨t, ?_, hdone, hdout, hreads'.trans hreads⟩
    rw [List.replicate_succ, drive_cons .core _ s u hu, ht]

/-- Loading the operands and giving a command leaves an idle core at the start of the operation on them. -/
theorem drive_loads_command (s : State) (d : Direction) (k b : Block) (hb : s.busy = false) :
    drive (hostEvents (ldkey k ++ ldblk b ++ [commandInstr d])) s =
      .next (acceptCommand d { s with key := k, din := b, schedule := [] }) := by
  have hkey : drive (hostEvents (ldkey k)) s = .next { s with key := k, schedule := [] } :=
    (loadsFillTheRegisterInAnyOrder s k _).1 (.refl _)
  have hdin : drive (hostEvents (ldblk b)) { s with key := k, schedule := [] } =
      .next { s with key := k, din := b, schedule := [] } := (loadsFillTheRegisterInAnyOrder _ b _).2 (.refl _)
  have hturn : turn (.access (commandWord d)) { s with key := k, din := b, schedule := [] } =
      .next (acceptCommand d { s with key := k, din := b, schedule := [] }) := turn_command _ d hb
  have hcmd : hostEvents [commandInstr d] = [.access (commandWord d)] := by cases d <;> rfl
  rw [hostEvents_append, hostEvents_append, List.append_assoc, drive_append _ _ _ _ hkey, drive_append _ _ _ _ hdin,
    hcmd, drive_cons _ _ _ _ hturn, drive_nil]
  rfl

/-- A pseudo-instruction on an idle core: operands, command, 51 turns of CORE, a poll, `RDBLK` (R89). -/
theorem drive_pseudoInstruction (s : State) (d : Direction) (k b : Block) (hb : s.busy = false) :
    ∃ t v, drive (hostEvents (ldkey k ++ ldblk b ++ [commandInstr d]) ++ List.replicate 51 .core ++
        hostEvents (.rd 0x31 :: rdblk)) s = .next t ∧ waitOver v = true ∧
      t.hostReads = s.hostReads ++ v :: (blockFunction d b k).toList := by
  have hstart := drive_loads_command s d k b hb
  have hinv := operationInv_acceptCommand d { s with key := k, din := b, schedule := [] }
  obtain ⟨u, hu, hdone, hdout, hreads⟩ := drive_core_completes 50 hinv rfl rfl
  have hrun := (drive_append _ (List.replicate 51 .core) s _ hstart).trans hu
  have hpoll := (drive_append _ (hostEvents (.rd 0x31 :: rdblk)) s u hrun).trans (drive_poll_rdblk u)
  refine ⟨_, status u, hpoll, (waitOver_status u).trans hdone, ?_⟩
  simp only [hreads, hdout, acceptCommand_hostReads, acceptCommand_dir]

/-- Settles O53: `ENCRYPT` and `DECRYPT` are the pseudo-instruction in the two directions. -/
theorem encryptAndDecryptReturnTheBlock : Obligations.EncryptAndDecryptReturnTheBlock := fun s k b hb =>
  ⟨drive_pseudoInstruction s .enc k b hb, drive_pseudoInstruction s .dec k b hb⟩

end Sys2Proof.Machine

/-! PROOFS for the statements about the S-box (40_sbox.md): the printed tables, their construction from the inverse
in GF(2^8), and the micro-operations `SUB` and `ISUB`. -/

namespace Sys2Proof.Machine

/-! ### The product in GF(2^8), by its first factor (R111) -/

theorem xtimes_zero (n : Nat) : xtimes n 0x00#8 = 0x00#8 := by
  induction n with
  | zero => rfl
  | succ n ih => rw [xtimes, ih, xtime_zero]

theorem xtimes_xor (n : Nat) (a b : Byte) : xtimes n (a ^^^ b) = xtimes n a ^^^ xtimes n b := by
  induction n with
  | zero => rfl
  | succ n ih => rw [xtimes, ih, xtime_xor, xtimes, xtimes]

theorem xtimes_xtime (n : Nat) (a : Byte) : xtimes n (xtime a) = xtime (xtimes n a) := by
  induction n with
  | zero => rfl
  | succ n ih => rw [xtimes, ih, xtimes]

theorem zero_gmulBelow (b : Byte) (n : Nat) : gmulBelow 0x00#8 b n = 0x00#8 := by
  induction n with
  | zero => rfl
  | succ n ih => rw [gmulBelow, ih, xtimes_zero, ite_self, BitVec.xor_self]

theorem xor_gmulBelow (a b c : Byte) (n : Nat) :
    gmulBelow (a ^^^ b) c n = gmulBelow a c n ^^^ gmulBelow b c n := by
  induction n with
  | zero => exact (BitVec.xor_self).symm
  | succ n ih =>
    rw [gmulBelow, ih, xtimes_xor, gmulBelow, gmulBelow]
    split
    · ac_rfl
    · simp

theorem xtime_gmulBelow (a b : Byte) (n : Nat) : gmulBelow (xtime a) b n = xtime (gmulBelow a b n) := by
  induction n with
  | zero => exact xtime_zero.symm
  | succ n ih =>
    rw [gmulBelow, ih, xtimes_xtime, gmulBelow, xtime_xor]
    split
    · rfl
    · rw [xtime_zero]

theorem zero_gmul (b : Byte) : gmul 0x00#8 b = 0x00#8 := zero_gmulBelow b 8

theorem xor_gmul (a b c : Byte) : gmul (a ^^^ b) c = gmul a c ^^^ gmul b c := xor_gmulBelow a b c 8

theorem xtime_gmul (a b : Byte) : gmul (xtime a) b = xtime (gmul a b) := xtime_gmulBelow a b 8

theorem xtimes_gmul (n : Nat) (a b : Byte) : gmul (xtimes n a) b = xtimes n (gmul a b) := by
  induction n with
  | zero => rfl
  | succ n ih => rw [xtimes, xtime_gmul, ih, xtimes]

theorem gmulBelow_gmul (a b c : Byte) (n : Nat) : gmul (gmulBelow a b n) c = gmulBelow (gmul a c) b n := by
  induction n with
  | zero => exact zero_gmul c
  | succ n ih =>
    rw [gmulBelow, xor_gmul, ih, gmulBelow]
    split
    · rw [xtimes_gmul]
    · rw [zero_gmul]

/-- A product does not depend on the order of its factors after the first: multiplying by `c` on the right is linear
and commutes with `xtime`, of which multiplying by `b` is made. -/
theorem gmul_right_comm (a b c : Byte) : gmul (gmul a b) c = gmul (gmul a c) b := gmulBelow_gmul a b c 8

theorem one_gmul : ∀ b : Byte, gmul 0x01 b = b := by decide

/-- A byte has at most one inverse in GF(2^8). -/
theorem eq_of_gmul_eq_one {a x y : Byte} (hx : gmul a x = 0x01) (hy : gmul a y = 0x01) : x = y :=
  calc
    x = gmul (gmul a y) x := by rw [hy, one_gmul]
    _ = gmul (gmul a x) y := gmul_right_comm a y x
    _ = y := by rw [hx, one_gmul]

/-! ### The construction of the table (R107) -/

/-- The inverse of the affine map of R107. -/
def sboxUnaffine (y : Byte) : Byte := rotl8 y 1 ^^^ rotl8 y 3 ^^^ rotl8 y 6 ^^^ 0x05

theorem sboxAffine_sboxUnaffine : ∀ y : Byte, sboxAffine (sboxUnaffine y) = y := by decide

/-- The printed table, taken back through the affine map, holds the inverses in GF(2^8). -/
theorem gmul_sboxUnaffine_sbox : ∀ a : Byte, a ≠ 0x00 → gmul a (sboxUnaffine (sbox a)) = 0x01 := by decide

theorem sbox_eq_sboxAffine {a x : Byte} (h : gmul a x = 0x01) : sbox a = sboxAffine x := by
  have ha : a ≠ 0x00 := by
    rintro rfl
    exact absurd ((zero_gmul x).symm.trans h) (by decide)
  rw [eq_of_gmul_eq_one h (gmul_sboxUnaffine_sbox a ha), sboxAffine_sboxUnaffine]

theorem sbox_zero : sbox 0x00 = sboxAffine 0x00 := by decide

theorem inv8_zero : inv8 0x00 = 0x00 := by decide

/-- The search of R107 finds an inverse, or there is none. -/
theorem inv8_cases (a : Byte) : gmul a (inv8 a) = 0x01 ∨ ∀ x, gmul a x ≠ 0x01 := by
  unfold inv8
  cases hfind : ((List.range 256).map (BitVec.ofNat 8)).find? (fun x => gmul a x == 0x01#8) with
  | some y => exact .inl (by simpa using List.find?_some hfind)
  | none =>
    refine .inr fun x hx => List.find?_eq_none.mp hfind x ?_ (beq_iff_eq.mpr hx)
    exact List.mem_map.mpr ⟨x.toNat, List.mem_range.mpr x.isLt, by simp⟩

/-- Settles O27: the table holds the affine map of an inverse, and a byte has no other. -/
theorem sboxIsTheConstruction : Obligations.SboxIsTheConstruction := by
  refine ⟨fun a => ?_, fun _ _ => sbox_eq_sboxAffine, sbox_zero⟩
  obtain rfl | ha := eq_or_ne a 0x00
  · rw [sboxConstructed, inv8_zero, sbox_zero]
  · exact sbox_eq_sboxAffine ((inv8_cases a).resolve_right fun h => h _ (gmul_sboxUnaffine_sbox a ha))

/-! ### The printed tables (R101, R102) -/

theorem invSbox_sbox : ∀ b : Byte, invSbox (sbox b) = b := by decide

theorem sbox_invSbox : ∀ b : Byte, sbox (invSbox b) = b := by decide

theorem sbox_bijective : Function.Bijective sbox :=
  Function.bijective_iff_has_inverse.mpr ⟨invSbox, invSbox_sbox, sbox_invSbox⟩

theorem invSbox_bijective : Function.Bijective invSbox :=
  Function.bijective_iff_has_inverse.mpr ⟨sbox, sbox_invSbox, invSbox_sbox⟩

/-- Settles O25: by going through the 256 bytes, for each of the two tables. -/
theorem sboxTablesAreInverse : Obligations.SboxTablesAreInverse := fun b => ⟨invSbox_sbox b, sbox_invSbox b⟩

theorem sbox_sbox_eq_self_iff : ∀ b : Byte, sbox (sbox b) = b ↔ b = 0x73 ∨ b = 0x8F := by decide

theorem sbox_ne_self_or_complement : ∀ b : Byte, sbox b ≠ b ∧ sbox b ≠ b ^^^ 0xFF := by decide

/-- Settles O26: the permutations by their inverses, the other facts from the printed table. -/
theorem sboxTableFacts : Obligations.SboxTableFacts :=
  ⟨sbox_bijective, invSbox_bijective, by decide, by decide, by decide, sbox_sbox_eq_self_iff,
    sbox_ne_self_or_complement, by decide⟩

/-! ### `SUB` and `ISUB` (R103, R104) -/

/-- HOST reads no element that a micro-operation on `ST` changes. -/
theorem regRead_updateSt (f : Block → Block) (s : State) (a : Addr) : regRead (updateSt f s) a = regRead s a := by
  unfold regRead
  cases region a <;> rfl

/-- Settles O20: each of the two is `updateSt` of a map that works byte by byte. -/
theorem substitutionMicroOperations : Obligations.SubstitutionMicroOperations :=
  ⟨rfl, rfl, fun s =>
    ⟨⟨_, exec_sub s, subBytes_get s.st, rfl, rfl, regRead_updateSt subBytes s⟩,
      ⟨_, exec_isub s, invSubBytes_get s.st, rfl, rfl, regRead_updateSt invSubBytes s⟩⟩⟩

end Sys2Proof.Machine

/-! PROOFS for the statements about GF(2^8) (41_gf256.md): the field laws of `gmul`, and the constant multipliers. -/

namespace Sys2Proof.Machine

/-! ### The field laws (R112)

`one_gmul` and `gmul_right_comm` give commutativity; with it each law of the first factor is one of the second. -/

theorem gmul_comm (a b : Byte) : gmul a b = gmul b a :=
  calc
    gmul a b = gmul (gmul 0x01 a) b := by rw [one_gmul]
    _ = gmul (gmul 0x01 b) a := gmul_right_comm 0x01 a b
    _ = gmul b a := by rw [one_gmul]

theorem gmul_assoc (a b c : Byte) : gmul (gmul a b) c = gmul a (gmul b c) :=
  calc
    gmul (gmul a b) c = gmul (gmul b a) c := by rw [gmul_comm a]
    _ = gmul (gmul b c) a := gmul_right_comm b a c
    _ = gmul a (gmul b c) := gmul_comm _ a

theorem gmul_xor (a b c : Byte) : gmul a (b ^^^ c) = gmul a b ^^^ gmul a c := by
  rw [gmul_comm, xor_gmul, gmul_comm b, gmul_comm c]

theorem gmul_one (a : Byte) : gmul a 0x01 = a := (gmul_comm a 0x01).trans (one_gmul a)

theorem gmul_zero (a : Byte) : gmul a 0x00 = 0x00 := (gmul_comm a 0x00).trans (zero_gmul a)

/-- Multiplying by the `n`-th power of 0x02 is doubling `n` times. -/
theorem xtimes_one_gmul (n : Nat) (b : Byte) : gmul (xtimes n 0x01) b = xtimes n b := by
  rw [xtimes_gmul, one_gmul]

/-- A byte but 0x00 has an inverse: the one the S-box holds, taken back through the affine map. -/
theorem exists_gmul_eq_one {a : Byte} (ha : a ≠ 0x00) : ∃ x, gmul a x = 0x01 :=
  ⟨_, gmul_sboxUnaffine_sbox a ha⟩

theorem xtimes_one_eq_one_iff : ∀ n ≤ 51, xtimes n 0x01 = 0x01 ↔ n = 0 ∨ n = 51 := by decide

/-- Settles O28: the laws of the second factor by commutativity, the order of 0x02 by going through its powers. -/
theorem gmulFieldLaws : Obligations.GmulFieldLaws := by
  refine ⟨gmul_comm, fun a b c => (gmul_assoc a b c).symm, gmul_xor, fun a => ?_, fun a ha => ?_,
    xtimes_one_eq_one_iff⟩
  · exact ⟨gmul_one a, gmul_zero a, xtimes_one_gmul 1 a, BitVec.xor_self⟩
  · obtain ⟨x, hx⟩ := exists_gmul_eq_one ha
    exact ⟨x, hx, fun y hy => eq_of_gmul_eq_one hy hx⟩

/-! ### The constant multipliers (R113 to R119)

Each constant is a XOR of powers of 0x02, and the multiplier is the XOR of the doublings that belong to them. -/

theorem mul2_eq_gmul (b : Byte) : mul2 b = gmul 0x02 b := (xtimes_one_gmul 1 b).symm

theorem mul3_eq_gmul (b : Byte) : mul3 b = gmul 0x03 b := by
  have hk : (0x03 : Byte) = xtimes 1 0x01 ^^^ xtimes 0 0x01 := by decide
  simp only [hk, xor_gmul, xtimes_one_gmul]
  rfl

theorem mul9_eq_gmul (b : Byte) : mul9 b = gmul 0x09 b := by
  have hk : (0x09 : Byte) = xtimes 3 0x01 ^^^ xtimes 0 0x01 := by decide
  simp only [hk, xor_gmul, xtimes_one_gmul]
  rfl

theorem mul11_eq_gmul (b : Byte) : mul11 b = gmul 0x0B b := by
  have hk : (0x0B : Byte) = xtimes 3 0x01 ^^^ xtimes 1 0x01 ^^^ xtimes 0 0x01 := by decide
  simp only [hk, xor_gmul, xtimes_one_gmul]
  rfl

theorem mul13_eq_gmul (b : Byte) : mul13 b = gmul 0x0D b := by
  have hk : (0x0D : Byte) = xtimes 3 0x01 ^^^ xtimes 2 0x01 ^^^ xtimes 0 0x01 := by decide
  simp only [hk, xor_gmul, xtimes_one_gmul]
  rfl

theorem mul14_eq_gmul (b : Byte) : mul14 b = gmul 0x0E b := by
  have hk : (0x0E : Byte) = xtimes 3 0x01 ^^^ xtimes 2 0x01 ^^^ xtimes 1 0x01 := by decide
  simp only [hk, xor_gmul, xtimes_one_gmul]
  rfl

theorem constantMultipliers_eq_map_gmul : [mul2, mul3, mul9, mul11, mul13, mul14] =
    [0x02, 0x03, 0x09, 0x0B, 0x0D, 0x0E].map gmul := by
  rw [funext mul2_eq_gmul, funext mul3_eq_gmul, funext mul9_eq_gmul, funext mul11_eq_gmul, funext mul13_eq_gmul,
    funext mul14_eq_gmul]
  rfl

/-- Multiplying by a byte but 0x00 is undone by multiplying by its inverse. -/
theorem gmul_bijective {k : Byte} (hk : k ≠ 0x00) : Function.Bijective (gmul k) := by
  obtain ⟨x, hx⟩ := exists_gmul_eq_one hk
  refine Function.bijective_iff_has_inverse.mpr ⟨gmul x, fun b => ?_, fun b => ?_⟩
  · rw [← gmul_assoc, gmul_comm x, hx, one_gmul]
  · rw [← gmul_assoc, hx, one_gmul]

/-- Settles O29: the six are `gmul` by constants other than 0x00, and `gmul` by any such byte has the properties. -/
theorem constantMultipliers : Obligations.ConstantMultipliers := by
  refine ⟨fun b => ⟨mul2_eq_gmul b, mul3_eq_gmul b, mul9_eq_gmul b, mul11_eq_gmul b, mul13_eq_gmul b,
    mul14_eq_gmul b, one_gmul b⟩, ?_⟩
  rw [constantMultipliers_eq_map_gmul, List.forall_mem_map]
  intro k hmem
  have hk : k ≠ 0x00 := by
    rintro rfl
    exact absurd hmem (by decide)
  exact ⟨gmul_zero k, gmul_xor k, gmul_bijective hk⟩

end Sys2Proof.Machine

/-! PROOFS for the statements about ShiftRows (42_shiftrows.md): the laws of the two rotations, and the
micro-operations `SHR` and `ISHR`. -/

namespace Sys2Proof.Machine

/-! ### The two rotations (R130, R131, R134)

`invShiftRows` undoes `shiftRows`, and four left rotations are the identity; with these three left rotations are
the right one, and so `shiftRows` undoes `invShiftRows`. -/

/-- R131 in the form of `shiftRows_at`: the byte in column `c` of row `r` moves to column `c + r`. -/
theorem invShiftRows_at_rotated (S : Block) (r c : Nat) (hr : r < 4) (hc : c < 4) :
    (invShiftRows S)[4 * r + (c + r) % 4] = S[4 * r + c] := by
  rw [invShiftRows_at S r _ hr (Nat.mod_lt _ (by decide))]
  exact getElem_congr_idx (by omega)

theorem invShiftRows_shiftRows (S : Block) : invShiftRows (shiftRows S) = S := by
  refine block_ext _ _ fun r c hr hc => ?_
  rw [invShiftRows_at _ r c hr hc, shiftRows_at S r _ hr (Nat.mod_lt _ (by decide))]
  exact getElem_congr_idx (by omega)

/-- `n` left rotations move row `r` by `n * r` columns. -/
theorem shiftRows_iterate_at (n : Nat) (S : Block) (r c : Nat) (hr : r < 4) (hc : c < 4) :
    (shiftRows^[n] S)[4 * r + c] = S[4 * r + (c + n * r) % 4] := by
  induction n generalizing S with
  | zero => exact getElem_congr_idx (by omega)
  | succ n ih =>
    simp only [Function.iterate_succ_apply]
    rw [ih (shiftRows S), shiftRows_at S r _ hr (Nat.mod_lt _ (by decide))]
    exact getElem_congr_idx (by rw [Nat.mod_add_mod, Nat.succ_mul n, ← Nat.add_assoc c])

theorem shiftRows_four (S : Block) : shiftRows (shiftRows (shiftRows (shiftRows S))) = S :=
  block_ext _ _ fun r c hr hc =>
    (shiftRows_iterate_at 4 S r c hr hc).trans (getElem_congr_idx (by omega))

theorem shiftRows_three (S : Block) : shiftRows (shiftRows (shiftRows S)) = invShiftRows S :=
  calc
    shiftRows (shiftRows (shiftRows S))
      = invShiftRows (shiftRows (shiftRows (shiftRows (shiftRows S)))) := (invShiftRows_shiftRows _).symm
    _ = invShiftRows S := by rw [shiftRows_four]

theorem shiftRows_invShiftRows (S : Block) : shiftRows (invShiftRows S) = S := by
  rw [← shiftRows_three, shiftRows_four]

theorem shiftRows_map (f : Byte → Byte) (S : Block) : shiftRows (S.map f) = (shiftRows S).map f :=
  Vector.ext fun i hi => by simp only [shiftRows_get, Vector.getElem_map]

theorem invShiftRows_map (f : Byte → Byte) (S : Block) : invShiftRows (S.map f) = (invShiftRows S).map f :=
  Vector.ext fun i hi => by simp only [invShiftRows_get, Vector.getElem_map]

/-- Settles O30: from `invShiftRows_shiftRows` and `shiftRows_four`; a rotation moves bytes and changes none, so
it commutes with a bytewise map. -/
theorem shiftRowsLaws : Obligations.ShiftRowsLaws := fun S =>
  ⟨invShiftRows_shiftRows S, shiftRows_invShiftRows S, shiftRows_four S, shiftRows_three S,
    fun f => ⟨shiftRows_map f S, invShiftRows_map f S⟩⟩

/-! ### `SHR` and `ISHR` (R132, R133) -/

/-- Settles O21: each of the two is `updateSt` of its rotation. -/
theorem shiftRowsMicroOperations : Obligations.ShiftRowsMicroOperations :=
  ⟨rfl, rfl, fun s =>
    ⟨⟨_, exec_shr s, shiftRows_at s.st, rfl, rfl, regRead_updateSt shiftRows s⟩,
      ⟨_, exec_ishr s, invShiftRows_at_rotated s.st, rfl, rfl, regRead_updateSt invShiftRows s⟩⟩⟩

end Sys2Proof.Machine

/-! PROOFS for the statements about MixColumns (43_mixcolumns.md): the laws of the two column maps, and the
micro-operations `MIX` and `IMIX`. -/

namespace Sys2Proof.Machine

/-! ### Circulant matrices over GF(2^8) (R140, R141)

Each of the two matrices has the rotations of one column as its columns. The product of two such matrices is one again,
with first column `circulant k l`, so a law about compositions of the two maps is a fact about their first columns. -/

/-- The product of the circulant matrix with first column `k` and the column `a`: row `r` of the matrix holds `k[r - j]`
in column `j`, the index taken modulo 4. -/
def circulant (k a : Word4) : Word4 := Vector.ofFn fun r : Fin 4 =>
  gmul k[r.val] a[0] ^^^ gmul k[(r.val + 3) % 4] a[1] ^^^ gmul k[(r.val + 2) % 4] a[2] ^^^ gmul k[(r.val + 1) % 4] a[3]

/-- The first column of the matrix of R140. -/
def mixFirstColumn : Word4 := #v[2, 1, 1, 3]

/-- The first column of the matrix of R141. -/
def invMixFirstColumn : Word4 := #v[14, 9, 13, 11]

theorem circulant_get (k a : Word4) (r : Nat) (hr : r < 4) : (circulant k a)[r] =
    gmul k[r] a[0] ^^^ gmul k[(r + 3) % 4] a[1] ^^^ gmul k[(r + 2) % 4] a[2] ^^^ gmul k[(r + 1) % 4] a[3] := by
  simp [circulant]

/-- `one_gmul` with the literal as `simp` writes it. -/
@[simp] theorem one_gmul_ofNat (b : Byte) : gmul 1#8 b = b := one_gmul b

/-- Once the products are distributed, each row is on both sides the XOR of the same sixteen products. -/
theorem circulant_assoc (k l a : Word4) : circulant k (circulant l a) = circulant (circulant k l) a := by
  refine Vector.ext fun r hr => ?_
  simp only [circulant_get, gmul_xor, xor_gmul, gmul_assoc]
  match r with
  | 0 | 1 | 2 | 3 => grind

/-- The matrix with first column 1, 0, 0, 0 is the identity. -/
theorem circulant_one (a : Word4) : circulant #v[1, 0, 0, 0] a = a := by
  refine Vector.ext fun r hr => ?_
  rw [circulant_get]
  match r with
  | 0 | 1 | 2 | 3 => simp [zero_gmul]

theorem circulant_xorWord (k a b : Word4) : circulant k (xorWord a b) = xorWord (circulant k a) (circulant k b) := by
  refine Vector.ext fun r hr => ?_
  simp only [circulant_get, xorWord_get, gmul_xor]
  ac_rfl

theorem mixColumn_eq_circulant : mixColumn = circulant mixFirstColumn := by
  funext a
  refine Vector.ext fun r hr => ?_
  rw [circulant_get]
  match r with
  | 0 | 1 | 2 | 3 => simp [mixColumn, mixFirstColumn, mul2_eq_gmul, mul3_eq_gmul]

theorem invMixColumn_eq_circulant : invMixColumn = circulant invMixFirstColumn := by
  funext a
  refine Vector.ext fun r hr => ?_
  rw [circulant_get]
  match r with
  | 0 | 1 | 2 | 3 =>
    simp [invMixColumn, invMixFirstColumn, mul9_eq_gmul, mul11_eq_gmul, mul13_eq_gmul, mul14_eq_gmul]

/-! ### The matrices on a block -/

theorem mapColumns_circulant_circulant (k l : Word4) (S : Block) :
    mapColumns (circulant k) (mapColumns (circulant l) S) = mapColumns (circulant (circulant k l)) S :=
  block_ext _ _ fun r c hr hc => by
    rw [mapColumns_at _ _ r c hr hc, mapColumns_at _ _ r c hr hc, column_mapColumns, circulant_assoc]

theorem mapColumns_circulant_one (S : Block) : mapColumns (circulant #v[1, 0, 0, 0]) S = S :=
  block_ext _ _ fun r c hr hc => by
    rw [mapColumns_at _ _ r c hr hc, circulant_one]
    match r with
    | 0 | 1 | 2 | 3 => simp [column]

theorem column_xor (A S : Block) (c : Fin 4) :
    column (Vector.zipWith (fun x y => x ^^^ y) A S) c = xorWord (column A c) (column S c) := by
  refine Vector.ext fun r hr => ?_
  match r with
  | 0 | 1 | 2 | 3 => simp [column]

theorem mapColumns_circulant_xor (k : Word4) (A S : Block) :
    mapColumns (circulant k) (Vector.zipWith (fun x y => x ^^^ y) A S) =
      Vector.zipWith (fun x y => x ^^^ y) (mapColumns (circulant k) A) (mapColumns (circulant k) S) :=
  Vector.ext fun i hi => by
    simp only [mapColumns_get, Vector.getElem_zipWith, column_xor, circulant_xorWord, xorWord_get]

theorem mapColumns_circulant_at (k : Word4) (S : Block) (r c : Nat) (hr : r < 4) (hc : c < 4) :
    (mapColumns (circulant k) S)[4 * r + c] =
      rowTimesColumn k[r] k[(r + 3) % 4] k[(r + 2) % 4] k[(r + 1) % 4] S ⟨c, hc⟩ := by
  rw [mapColumns_at _ _ r c hr hc, circulant_get]
  rfl

theorem mixColumns_eq_circulant (S : Block) : mixColumns S = mapColumns (circulant mixFirstColumn) S := by
  rw [mixColumns, mixColumn_eq_circulant]

theorem invMixColumns_eq_circulant (S : Block) : invMixColumns S = mapColumns (circulant invMixFirstColumn) S := by
  rw [invMixColumns, invMixColumn_eq_circulant]

/-! ### The laws of the two column maps (R144) -/

theorem circulant_invMixFirstColumn_mixFirstColumn : circulant invMixFirstColumn mixFirstColumn = #v[1, 0, 0, 0] := by
  decide

theorem circulant_mixFirstColumn_three :
    circulant mixFirstColumn (circulant mixFirstColumn mixFirstColumn) = invMixFirstColumn := by decide

theorem invMixColumns_mixColumns (S : Block) : invMixColumns (mixColumns S) = S := by
  rw [mixColumns_eq_circulant, invMixColumns_eq_circulant, mapColumns_circulant_circulant,
    circulant_invMixFirstColumn_mixFirstColumn, mapColumns_circulant_one]

theorem mixColumns_three (S : Block) : mixColumns (mixColumns (mixColumns S)) = invMixColumns S := by
  simp only [mixColumns_eq_circulant, invMixColumns_eq_circulant, mapColumns_circulant_circulant,
    circulant_mixFirstColumn_three]

theorem mixColumns_four (S : Block) : mixColumns (mixColumns (mixColumns (mixColumns S))) = S := by
  rw [mixColumns_three, invMixColumns_mixColumns]

theorem mixColumns_invMixColumns (S : Block) : mixColumns (invMixColumns S) = S := by
  rw [← mixColumns_three, mixColumns_four]

theorem mixColumns_xor (A S : Block) : mixColumns (Vector.zipWith (fun x y => x ^^^ y) A S) =
    Vector.zipWith (fun x y => x ^^^ y) (mixColumns A) (mixColumns S) := by
  simp only [mixColumns_eq_circulant, mapColumns_circulant_xor]

theorem invMixColumns_xor (A S : Block) : invMixColumns (Vector.zipWith (fun x y => x ^^^ y) A S) =
    Vector.zipWith (fun x y => x ^^^ y) (invMixColumns A) (invMixColumns S) := by
  simp only [invMixColumns_eq_circulant, mapColumns_circulant_xor]

/-- Settles O31: the inverse and the third power by computing first columns, the other compositions from these two;
linearity from that of `gmul`. -/
theorem mixColumnsLaws : Obligations.MixColumnsLaws := fun S =>
  ⟨invMixColumns_mixColumns S, mixColumns_invMixColumns S, mixColumns_four S, mixColumns_three S,
    fun A => ⟨mixColumns_xor A S, invMixColumns_xor A S⟩⟩

/-! ### `MIX` and `IMIX` (R142, R143) -/

theorem le_of_progInstr {d : Direction} {n : Nat} {i : Instr} (h : progInstr d n = some i) : n ≤ 50 := by
  by_contra hn
  rw [progInstr_past d n (by omega)] at h
  cases h

/-- `MIX` stands at the third place of the rounds 1 to 9 of `ENC` (R179). -/
theorem progInstr_eq_mix_iff (d : Direction) (n : Nat) :
    progInstr d n = some .mix ↔ d = .enc ∧ ∃ k, 1 ≤ k ∧ k ≤ 9 ∧ n = 9 + 4 * k := by
  have listing : ∀ d ∈ [Direction.enc, Direction.dec], ∀ n < 51, progInstr d n = some .mix →
      d = .enc ∧ 13 ≤ n ∧ n ≤ 45 ∧ n % 4 = 1 := by decide +kernel
  constructor
  · intro h
    obtain ⟨hd, h13, h45, hmod⟩ := listing d (by cases d <;> simp) n (Nat.lt_succ_of_le (le_of_progInstr h)) h
    exact ⟨hd, (n - 9) / 4, by omega, by omega, by omega⟩
  · rintro ⟨rfl, k, h1, h9, rfl⟩
    obtain ⟨-, -, hmix, -⟩ := progInstr_encRound (k - 1) (by omega)
    rwa [show 11 + 4 * (k - 1) + 2 = 9 + 4 * k by omega] at hmix

/-- `IMIX` stands at the second place of the rounds 9 to 1 of `DEC` (R180). -/
theorem progInstr_eq_imix_iff (d : Direction) (n : Nat) :
    progInstr d n = some .imix ↔ d = .dec ∧ ∃ k, 1 ≤ k ∧ k ≤ 9 ∧ n = 50 - 4 * k := by
  have listing : ∀ d ∈ [Direction.enc, Direction.dec], ∀ n < 51, progInstr d n = some .imix →
      d = .dec ∧ 14 ≤ n ∧ n ≤ 46 ∧ n % 4 = 2 := by decide +kernel
  constructor
  · intro h
    obtain ⟨hd, h14, h46, hmod⟩ := listing d (by cases d <;> simp) n (Nat.lt_succ_of_le (le_of_progInstr h)) h
    exact ⟨hd, (50 - n) / 4, by omega, by omega, by omega⟩
  · rintro ⟨rfl, k, h1, h9, rfl⟩
    obtain ⟨-, himix, -, -⟩ := progInstr_decRound (9 - k) (by omega)
    rwa [show 13 + 4 * (9 - k) + 1 = 50 - 4 * k by omega] at himix

/-- The four rows of a circulant matrix times column `c`, as the places of the result that hold them. -/
theorem mapColumns_circulant_rows (k : Word4) (S : Block) (c : Nat) (hc : c < 4) :
    (mapColumns (circulant k) S)[c] = rowTimesColumn k[0] k[3] k[2] k[1] S ⟨c, hc⟩ ∧
    (mapColumns (circulant k) S)[4 + c] = rowTimesColumn k[1] k[0] k[3] k[2] S ⟨c, hc⟩ ∧
    (mapColumns (circulant k) S)[8 + c] = rowTimesColumn k[2] k[1] k[0] k[3] S ⟨c, hc⟩ ∧
    (mapColumns (circulant k) S)[12 + c] = rowTimesColumn k[3] k[2] k[1] k[0] S ⟨c, hc⟩ := by
  have h := mapColumns_circulant_at k S
  exact ⟨by simpa using h 0 c (by decide) hc, h 1 c (by decide) hc, h 2 c (by decide) hc, h 3 c (by decide) hc⟩

/-- Settles O22: each of the two is `updateSt` of its circulant matrix, and stands where the listings have it. -/
theorem mixColumnsMicroOperations : Obligations.MixColumnsMicroOperations := by
  refine ⟨rfl, rfl, progInstr_eq_mix_iff, progInstr_eq_imix_iff, fun s => ⟨?_, ?_⟩⟩
  · refine ⟨_, exec_mix s, fun c hc => ?_, rfl, rfl, regRead_updateSt mixColumns s⟩
    simp only [updateSt_st, mixColumns_eq_circulant]
    exact mapColumns_circulant_rows mixFirstColumn s.st c hc
  · refine ⟨_, exec_imix s, fun c hc => ?_, rfl, rfl, regRead_updateSt invMixColumns s⟩
    simp only [updateSt_st, invMixColumns_eq_circulant]
    exact mapColumns_circulant_rows invMixFirstColumn s.st c hc

end Sys2Proof.Machine

/-! PROOFS for the statements about the key expansion (44_keyexpansion.md): the round constants, the 44 Words, the round
keys as Words and as repeated `nextRoundKey`, and the micro-operation `KXR`. -/

namespace Sys2Proof.Machine

/-! ### The functions on a Word, byte by byte (R150 to R153) -/

theorem rotWord_get (w : Word4) (k : Nat) (h : k < 4) : (rotWord w)[k] = w[(k + 1) % 4] := by
  match k, h with
  | 0, _ | 1, _ | 2, _ | 3, _ => rfl

theorem xorFirst_get (w : Word4) (b : Byte) (k : Nat) (h : k < 4) :
    (xorFirst w b)[k] = w[k] ^^^ if k = 0 then b else 0x00 := by
  cases k with
  | zero => simp [xorFirst]
  | succ k => simp [xorFirst]

/-- `T` at the first Word of round key `r + 1`. -/
theorem scheduleT_first (r : Nat) (w : Word4) :
    scheduleT (4 * r + 4) w = xorFirst (subWord (rotWord w)) (rcon (r + 1)) := by
  have hmod : (4 * r + 4) % 4 = 0 := by omega
  have hdiv : (4 * r + 4) / 4 = r + 1 := by omega
  rw [scheduleT, if_pos hmod, hdiv]

theorem scheduleT_other {i : Nat} (h : i % 4 ≠ 0) (w : Word4) : scheduleT i w = w := if_neg h

/-! ### The round constants (R152) -/

/-- Settles O33: the recurrence is `rcon_succ`; the ten values by computing them. -/
theorem roundConstants : Obligations.RoundConstants := ⟨rfl, fun _ => rcon_succ, by decide⟩

/-! ### The 44 Words (R154) -/

section scheduleWords

variable (K : Block)

/-- A longer schedule begins with the shorter one. -/
theorem scheduleWords_succ_get (n i : Nat) (h : i < n + 4) :
    (scheduleWords K (n + 1))[i] = (scheduleWords K n)[i] := Vector.getElem_push_lt h

theorem scheduleWords_succ_last (n : Nat) : (scheduleWords K (n + 1))[n + 4] =
    xorWord (scheduleWords K n)[n] (scheduleT (n + 4) (scheduleWords K n)[n + 3]) := Vector.getElem_push_eq

theorem scheduleWords_key (n i : Nat) (h : i < 4) : (scheduleWords K n)[i] = wordOf K ⟨i, h⟩ := by
  induction n with
  | zero =>
    match i, h with
    | 0, _ | 1, _ | 2, _ | 3, _ => rfl
  | succ n ih => rw [scheduleWords_succ_get K n i (by omega), ih]

theorem scheduleWords_recurrence (n i : Nat) (h : i < n) : (scheduleWords K n)[i + 4] =
    xorWord (scheduleWords K n)[i] (scheduleT (i + 4) (scheduleWords K n)[i + 3]) := by
  induction n with
  | zero => omega
  | succ n ih =>
    rw [scheduleWords_succ_get K n i (by omega), scheduleWords_succ_get K n (i + 3) (by omega)]
    obtain rfl | hlt : i = n ∨ i < n := by omega
    · exact scheduleWords_succ_last K i
    · rw [scheduleWords_succ_get K n (i + 4) (by omega), ih hlt]

theorem expandWords_key (i : Nat) (h : i < 4) : (expandWords K)[i] = wordOf K ⟨i, h⟩ := scheduleWords_key K 40 i h

theorem expandWords_add_four (i : Nat) (h : i < 40) : (expandWords K)[i + 4] =
    xorWord (expandWords K)[i] (scheduleT (i + 4) (expandWords K)[i + 3]) := scheduleWords_recurrence K 40 i h

/-- The first Word of round key `r + 1`, where `T` is not the identity (R153). -/
theorem expandWords_first (r : Nat) (hr : r < 10) : (expandWords K)[4 * (r + 1) + 0] =
    xorWord (expandWords K)[4 * r + 0] (xorFirst (subWord (rotWord (expandWords K)[4 * r + 3])) (rcon (r + 1))) := by
  rw [← scheduleT_first]
  exact expandWords_add_four K (4 * r) (by omega)

/-- Word `j + 1` of round key `r + 1`, where `T` is the identity (R153). -/
theorem expandWords_later (r j : Nat) (hr : r < 10) (hj : j + 1 < 4) : (expandWords K)[4 * (r + 1) + (j + 1)] =
    xorWord (expandWords K)[4 * r + (j + 1)] (expandWords K)[4 * (r + 1) + j] := by
  have hindex : 4 * (r + 1) + (j + 1) = 4 * r + (j + 1) + 4 := by omega
  have hbefore : 4 * r + (j + 1) + 3 = 4 * (r + 1) + j := by omega
  have hmod : (4 * r + (j + 1) + 4) % 4 ≠ 0 := by omega
  simp only [hindex, expandWords_add_four K (4 * r + (j + 1)) (by omega), scheduleT_other hmod, hbefore]

end scheduleWords

/-- Settles O34: by induction on the length of the schedule. -/
theorem scheduleWordsRecurrence : Obligations.ScheduleWordsRecurrence := by
  refine fun K => ⟨fun i k hi hk => ?_, fun i h4 h => ?_⟩
  · rw [expandWords_key K i hi, wordOf_get]
  · obtain ⟨i, rfl⟩ := Nat.exists_eq_add_of_le' h4
    exact expandWords_add_four K i (by omega)

/-! ### The step from one round key to the next (R156), Word by Word -/

theorem wordOf_joinWords (w0 w1 w2 w3 : Word4) (j : Nat) (h : j < 4) :
    wordOf (joinWords w0 w1 w2 w3) ⟨j, h⟩ = #v[w0, w1, w2, w3][j] := by
  apply Vector.ext
  intro k hk
  simp only [wordOf_get, joinWords_get, row_of_index j k hk, col_of_index j k hk]

theorem joinWords_wordOf (P : Block) : joinWords (wordOf P 0) (wordOf P 1) (wordOf P 2) (wordOf P 3) = P := by
  refine block_ext _ _ fun j k hj hk => ?_
  simp only [joinWords_get, row_of_index j k hk, col_of_index j k hk]
  match j, hj with
  | 0, _ | 1, _ | 2, _ | 3, _ => simp

section nextRoundKey

variable (P : Block) (rc : Byte)

theorem wordOf_nextRoundKey_first : wordOf (nextRoundKey P rc) ⟨0, by decide⟩ =
    xorWord (wordOf P ⟨0, by decide⟩) (xorFirst (subWord (rotWord (wordOf P ⟨3, by decide⟩))) rc) :=
  wordOf_joinWords _ _ _ _ 0 _

theorem wordOf_nextRoundKey_succ (j : Nat) (h : j + 1 < 4) : wordOf (nextRoundKey P rc) ⟨j + 1, h⟩ =
    xorWord (wordOf P ⟨j + 1, h⟩) (wordOf (nextRoundKey P rc) ⟨j, by omega⟩) := by
  simp only [nextRoundKey, wordOf_joinWords]
  match j, h with
  | 0, _ | 1, _ | 2, _ => rfl

theorem nextRoundKey_first_at (k : Nat) (h : k < 4) : (nextRoundKey P rc)[k] =
    P[k] ^^^ sbox P[12 + (k + 1) % 4] ^^^ (if k = 0 then rc else 0x00) := by
  have hword := congrArg (·[k]) (wordOf_nextRoundKey_first P rc)
  simpa [xorFirst_get, rotWord_get, BitVec.xor_assoc] using hword

theorem nextRoundKey_succ_at (j k : Nat) (hj : j + 1 < 4) (hk : k < 4) : (nextRoundKey P rc)[4 * (j + 1) + k] =
    P[4 * (j + 1) + k] ^^^ (nextRoundKey P rc)[4 * j + k] := by
  have hword := congrArg (·[k]) (wordOf_nextRoundKey_succ P rc j hj)
  simpa using hword

end nextRoundKey

theorem expandKey_get (K : Block) (r : Nat) (h : r < 11) : (expandKey K)[r] = roundKey K r := by simp [expandKey]

/-- Settles O36: the bytes of the Words of the next round key, and `roundKey` unfolded once. -/
theorem nextRoundKeyBytes : Obligations.NextRoundKeyBytes := by
  refine ⟨fun K => ⟨expandKey_get K 0 (by decide), fun r h => ?_⟩, fun P rc k hk => ⟨?_, ?_, ?_, ?_⟩⟩
  · rw [expandKey_get, expandKey_get, roundKey]
  · exact nextRoundKey_first_at P rc k hk
  · simpa using nextRoundKey_succ_at P rc 0 k (by decide) hk
  · exact nextRoundKey_succ_at P rc 1 k (by decide) hk
  · exact nextRoundKey_succ_at P rc 2 k (by decide) hk

/-! ### The round keys are the Words (R155) -/

/-- Word `j` of round key `r` is Word `4r + j` of the schedule: the first by `T`, each later one from the one
before it. -/
theorem wordOf_roundKey (K : Block) (r : Nat) (hr : r ≤ 10) (j : Nat) (hj : j < 4) :
    wordOf (roundKey K r) ⟨j, hj⟩ = (expandWords K)[4 * r + j] := by
  induction r generalizing j with
  | zero => simpa [roundKey] using (expandWords_key K j hj).symm
  | succ r ihr =>
    induction j with
    | zero =>
      rw [expandWords_first K r (by omega), roundKey, wordOf_nextRoundKey_first, ihr (by omega) 0, ihr (by omega) 3]
    | succ j ihj =>
      rw [expandWords_later K r j (by omega) hj, roundKey, wordOf_nextRoundKey_succ, ihr (by omega) (j + 1),
        ← roundKey, ihj]

/-- Settles O35: Word by Word, and a block is the join of its Words. -/
theorem roundKeysAreTheWords : Obligations.RoundKeysAreTheWords := by
  refine fun K r => ⟨?_, fun j k hj hk => ?_⟩
  · have word := wordOf_roundKey K r.val (by omega)
    calc (expandKey K)[r.val]
        = joinWords (wordOf (roundKey K r.val) 0) (wordOf (roundKey K r.val) 1) (wordOf (roundKey K r.val) 2)
            (wordOf (roundKey K r.val) 3) := by rw [expandKey_get, joinWords_wordOf]
      _ = roundKeyOfWords K r := by
        rw [roundKeyOfWords, ← word 1, ← word 2, ← word 3]
        exact congrArg (joinWords · _ _ _) (word 0 (by decide))
  · rw [expandKey_get, ← wordOf_roundKey K r.val (by omega) j hj, wordOf_get]

/-! ### `KXR` (R157) -/

theorem decodeM_kxr : ∀ r ≤ 10, 1 ≤ r →
    decodeM (BitVec.ofNat 8 (0x10 + r)) = .ok (.kxr (BitVec.ofNat 4 r)) := by
  decide

/-- HOST reads no element that the key expansion changes. -/
theorem regRead_expandRound (r : Nat) (h : r < 11) (s : State) (a : Addr) :
    regRead (expandRound r h s) a = regRead s a := by
  unfold regRead
  cases region a <;> rfl

theorem exec_kxr_ofNat {r : Nat} (h1 : 1 ≤ r) (h10 : r ≤ 10) (s : State) :
    exec (.kxr (BitVec.ofNat 4 r)) s = .next (expandRound r (by omega) s) := by
  have hr : (BitVec.ofNat 4 r).toNat = r := by simp; omega
  rw [exec_kxr _ s (by omega) (by omega)]
  simp only [hr]

/-- `KXR r` stands at position `r - 1` of both micro-programs and nowhere else (R175). -/
theorem progInstr_eq_kxr_iff {r : Nat} (h1 : 1 ≤ r) (h10 : r ≤ 10) (d : Direction) (n : Nat) :
    progInstr d n = some (.kxr (BitVec.ofNat 4 r)) ↔ n = r - 1 := by
  constructor
  · intro h
    obtain ⟨-, hp⟩ | ⟨h9, hp⟩ | ⟨-, -, i, hp, hi⟩ := progInstr_cases d n (le_of_progInstr h)
    · simp [hp] at h
    · rw [hp] at h
      have hr : BitVec.ofNat 4 (n + 1) = BitVec.ofNat 4 r := by simpa using h
      have hmod : (n + 1) % 16 = r % 16 := by simpa using congrArg BitVec.toNat hr
      omega
    · obtain rfl : i = .kxr (BitVec.ofNat 4 r) := by simpa [hp] using h
      simp at hi
  · rintro rfl
    obtain ⟨h50, -⟩ | ⟨-, hp⟩ | ⟨h, -⟩ := progInstr_cases d (r - 1) (by omega)
    · omega
    · rwa [Nat.sub_add_cancel h1] at hp
    · omega

/-- Settles O18: `KXR r` is `expandRound r`. -/
theorem keyExpansionRound : Obligations.KeyExpansionRound := by
  intro s r h1 h10
  refine ⟨decodeM_kxr r h10 h1, _, exec_kxr_ofNat h1 h10 s, ?_, fun j hj hne => ?_, rfl, rfl, rfl,
    regRead_expandRound r (by omega) s, progInstr_eq_kxr_iff h1 h10⟩
  · rw [expandRound_rk, Vector.getElem_set_self]
  · rw [expandRound_rk, Vector.getElem_set_ne _ _ hne.symm]

end Sys2Proof.Machine

/-! PROOFS for the statements about AddRoundKey (45_addroundkey.md): the laws of `addRoundKey` and `transpose`, and the
micro-operation `ARK`. -/

namespace Sys2Proof.Machine

/-! ### The laws (R165, R167, R170)

`addRoundKey S K` is the bytewise XOR of `S` and `transpose K`; the laws about other maps follow from what these do to
a bytewise XOR. -/

theorem transpose_transpose (B : Block) : transpose (transpose B) = B :=
  block_ext _ _ fun r c hr hc => by rw [transpose_at _ r c hr hc, transpose_at B c r hc hr]

theorem transpose_xor (A B : Block) : transpose (Vector.zipWith (fun x y => x ^^^ y) A B) =
    Vector.zipWith (fun x y => x ^^^ y) (transpose A) (transpose B) :=
  Vector.ext fun i hi => by simp only [transpose_get, Vector.getElem_zipWith]

theorem addRoundKey_eq_xor (S K : Block) :
    addRoundKey S K = Vector.zipWith (fun x y => x ^^^ y) S (transpose K) :=
  Vector.ext fun i hi => by simp only [addRoundKey_get, transpose_get, Vector.getElem_zipWith]

/-- In the external ordering the key is added as it stands: the two transpositions of the key cancel. -/
theorem transpose_addRoundKey (S K : Block) :
    transpose (addRoundKey S K) = Vector.zipWith (fun x y => x ^^^ y) (transpose S) K := by
  rw [addRoundKey_eq_xor, transpose_xor, transpose_transpose]

theorem addRoundKey_addRoundKey (S K : Block) : addRoundKey (addRoundKey S K) K = S :=
  Vector.ext fun i hi => by
    rw [addRoundKey_get, addRoundKey_get, BitVec.xor_assoc, BitVec.xor_self, BitVec.xor_zero]

theorem addRoundKey_zeroBlock (S : Block) : addRoundKey S zeroBlock = S :=
  Vector.ext fun i hi => by simp [zeroBlock]

theorem mixColumns_addRoundKey (S K : Block) : mixColumns (addRoundKey S K) =
    Vector.zipWith (fun x y => x ^^^ y) (mixColumns S) (mixColumns (transpose K)) := by
  rw [addRoundKey_eq_xor, mixColumns_xor]

/-- Settles O32: `addRoundKey` as a bytewise XOR, which `transpose` and `mixColumns` distribute over. -/
theorem addRoundKeyLaws : Obligations.AddRoundKeyLaws := fun S K =>
  ⟨transpose_transpose S, addRoundKey_eq_xor S K, transpose_addRoundKey S K, addRoundKey_addRoundKey S K,
    addRoundKey_zeroBlock S, mixColumns_addRoundKey S K⟩

/-! ### `ARK` (R166) -/

theorem decodeM_ark : ∀ r ≤ 10, decodeM (BitVec.ofNat 8 (0x20 + r)) = .ok (.ark (BitVec.ofNat 4 r)) := by
  decide

theorem exec_ark_ofNat {r : Nat} (h : r ≤ 10) (s : State) :
    exec (.ark (BitVec.ofNat 4 r)) s = .next (updateSt (fun S => addRoundKey S s.rk[r]) s) := by
  have hr : (BitVec.ofNat 4 r).toNat = r := by simp; omega
  rw [exec_ark _ s (by omega)]
  simp only [hr]

/-- The position of `ARK r` in a micro-program: the last of its round in `ENC`, the first in `DEC`; the round of
`r = 10` is three long, those of 1 to 9 are four long (R175). -/
def arkPosition : Direction → Nat → Nat
  | .enc, r => if r = 10 then 49 else 10 + 4 * r
  | .dec, r => if r = 10 then 10 else 49 - 4 * r

theorem arkPosition_le {r : Nat} (h : r ≤ 10) (d : Direction) : arkPosition d r ≤ 50 := by
  cases d <;> (simp only [arkPosition]; split <;> omega)

/-- `ARK r` stands at its position and nowhere else: read off the 51 words of each listing, past which there are none
(R179, R180). -/
theorem progInstr_eq_ark_iff {r : Nat} (h : r ≤ 10) (d : Direction) (n : Nat) :
    progInstr d n = some (.ark (BitVec.ofNat 4 r)) ↔ n = arkPosition d r := by
  have listing : ∀ d ∈ [Direction.enc, Direction.dec], ∀ r ≤ 10, ∀ n < 51,
      (progInstr d n = some (.ark (BitVec.ofNat 4 r)) ↔ n = arkPosition d r) := by decide +kernel
  have within : n ≤ 50 → (progInstr d n = some (.ark (BitVec.ofNat 4 r)) ↔ n = arkPosition d r) := fun hn =>
    listing d (by cases d <;> simp) r h n (Nat.lt_succ_of_le hn)
  constructor
  · exact fun hp => (within (le_of_progInstr hp)).mp hp
  · exact fun hn => (within (hn ▸ arkPosition_le h d)).mpr hn

/-- Settles O19: `ARK r` is `updateSt` of the addition of round key `r`, and stands at `arkPosition`. -/
theorem addRoundKeyMicroOperation : Obligations.AddRoundKeyMicroOperation := fun s r h10 =>
  ⟨decodeM_ark r h10, _, exec_ark_ofNat h10 s, addRoundKey_at s.st s.rk[r], rfl, rfl, regRead_updateSt _ s,
    progInstr_eq_ark_iff h10 .enc, progInstr_eq_ark_iff h10 .dec⟩

end Sys2Proof.Machine

/-! PROOFS for the statements about an operation (46_blocktransform.md): acceptance and `STO`, the two listings, the
block functions as inverses, what the sequencer and CORE depend on, and what an operation computes under any
interleaving with host accesses. -/

namespace Sys2Proof.Machine

/-! ### The first and the last move of an operation (R173, R186) -/

/-- Settles O16: either command on an idle core is `acceptCommand`. -/
theorem idleCoreAcceptsACommand : Obligations.IdleCoreAcceptsACommand := by
  intro s d hb
  have hexec : exec (commandInstr d) s = .next (acceptCommand d s) := by
    cases d with
    | enc => exact (exec_enc s).trans (congrArg _ (hostCommand_idle .enc s hb))
    | dec => exact (exec_dec s).trans (congrArg _ (hostCommand_idle .dec s hb))
  refine ⟨_, hexec, ?_, fun r h hne => ?_, transpose_at s.din, rfl, rfl, rfl, rfl, rfl, rfl⟩
  · rw [acceptCommand_rk, Vector.getElem_set_self]
  · rw [acceptCommand_rk, Vector.getElem_set_ne _ _ hne.symm]

/-- `STO` stands at position 50 of both micro-programs and nowhere else (R175). -/
theorem progInstr_eq_sto_iff (d : Direction) (n : Nat) : progInstr d n = some .sto ↔ n = 50 := by
  constructor
  · intro h
    obtain ⟨h50, -⟩ | ⟨-, hp⟩ | ⟨-, -, i, hp, hi⟩ := progInstr_cases d n (le_of_progInstr h)
    · exact h50
    · simp [hp] at h
    · obtain rfl : i = .sto := by simpa [hp] using h
      simp at hi
  · rintro rfl
    cases d <;> decide

/-- Which addresses name a byte of `DOUT`. -/
theorem region_eq_dout (a : Addr) (i : Fin 16) : region a = .dout i ↔ a = BitVec.ofNat 6 (0x20 + i.val) := by
  revert a i; decide

/-- Only 0x31 is `STATUS`. -/
theorem region_eq_status (a : Addr) : region a = .status ↔ a = 0x31 := by revert a; decide

/-- Only the addresses of `DOUT` and `STATUS` read differently after `STO`. -/
theorem regRead_storeResult (s : State) (a : Addr) (hdout : a.toNat < 0x20 ∨ 0x30 ≤ a.toNat) (hstatus : a ≠ 0x31) :
    regRead (storeResult s) a = regRead s a := by
  unfold regRead
  cases hr : region a with
  | dout i =>
    have ha := congrArg BitVec.toNat ((region_eq_dout a i).mp hr)
    rw [BitVec.toNat_ofNat] at ha
    omega
  | status => exact absurd ((region_eq_status a).mp hr) hstatus
  | _ => simp

/-- Settles O23: `STO` is `storeResult`. -/
theorem storeMicroOperation : Obligations.StoreMicroOperation :=
  ⟨rfl, progInstr_eq_sto_iff, fun s =>
    ⟨_, exec_sto s, fun r c hr hc => transpose_at s.st c r hc hr, rfl, rfl, rfl, rfl, regRead_storeResult s⟩⟩

/-- Settles O38: the 51 words of each direction by computing them. -/
theorem microProgramListings : Obligations.MicroProgramListings := ⟨by decide, by decide, uprog_past⟩

/-! ### The block functions are inverse to each other (R189) -/

theorem invSubBytes_subBytes (S : Block) : invSubBytes (subBytes S) = S :=
  Vector.ext fun i hi => by rw [invSubBytes_get, subBytes_get, invSbox_sbox]

theorem subBytes_invSubBytes (S : Block) : subBytes (invSubBytes S) = S :=
  Vector.ext fun i hi => by rw [subBytes_get, invSubBytes_get, sbox_invSbox]

theorem decryptRound_encryptRound (K S : Block) (r : Nat) : decryptRound K (encryptRound K S r) r = S := by
  rw [decryptRound, encryptRound, addRoundKey_addRoundKey, invMixColumns_mixColumns, invShiftRows_shiftRows,
    invSubBytes_subBytes]

theorem encryptRound_decryptRound (K S : Block) (r : Nat) : encryptRound K (decryptRound K S r) r = S := by
  rw [decryptRound, encryptRound, subBytes_invSubBytes, shiftRows_invShiftRows, mixColumns_invMixColumns,
    addRoundKey_addRoundKey]

/-- Rounds that are each undone are all undone when they are taken back in reverse order. -/
theorem foldl_foldl_reverse {f g : Block → Nat → Block} (h : ∀ S r, g (f S r) r = S) (rs : List Nat) (S : Block) :
    rs.foldl g (rs.reverse.foldl f S) = S := by
  induction rs generalizing S with
  | nil => rfl
  | cons r rs ih => rw [List.reverse_cons, List.foldl_append, List.foldl_cons, List.foldl_cons, List.foldl_nil, h, ih]

theorem decryptBlock_encryptBlock (B K : Block) : decryptBlock (encryptBlock B K) K = B := by
  have order : [1, 2, 3, 4, 5, 6, 7, 8, 9] = [9, 8, 7, 6, 5, 4, 3, 2, 1].reverse := rfl
  simp only [decryptBlock, encryptBlock, transpose_transpose, addRoundKey_addRoundKey, invShiftRows_shiftRows,
    invSubBytes_subBytes]
  rw [order, foldl_foldl_reverse (decryptRound_encryptRound K), addRoundKey_addRoundKey, transpose_transpose]

theorem encryptBlock_decryptBlock (B K : Block) : encryptBlock (decryptBlock B K) K = B := by
  have order : [9, 8, 7, 6, 5, 4, 3, 2, 1] = [1, 2, 3, 4, 5, 6, 7, 8, 9].reverse := rfl
  simp only [decryptBlock, encryptBlock, transpose_transpose, addRoundKey_addRoundKey]
  rw [order, foldl_foldl_reverse (encryptRound_decryptRound K), subBytes_invSubBytes, shiftRows_invShiftRows,
    addRoundKey_addRoundKey, transpose_transpose]

/-- Settles O37: the steps of a round are undone one by one, and the rounds in reverse order. -/
theorem decryptUndoesEncrypt : Obligations.DecryptUndoesEncrypt := fun B K =>
  ⟨decryptBlock_encryptBlock B K, encryptBlock_decryptBlock B K⟩

/-! ### No turn stops (R174, R200) -/

/-- A turn of CORE stops only past position 50, which the invariant shuts out; the other turns never stop. -/
theorem exists_turn_of_operationInv {s : State} {P K : Block} (h : OperationInv s P K) (e : Event) :
    ∃ t, turn e s = .next t := by
  cases e with
  | access w =>
    obtain ⟨t, ht, -⟩ := access_cases w s
    exact ⟨t, ht⟩
  | reset => exact ⟨_, rfl⟩
  | core =>
    cases hb : s.busy with
    | false => exact ⟨s, coreTurn_idle s hb⟩
    | true =>
      obtain ⟨-, ht⟩ | ⟨_, ht⟩ | ⟨-, -, i, f, -, ht, -⟩ := coreTurn_cases s hb (h.running hb).2
      · exact ⟨_, ht⟩
      · exact ⟨_, ht⟩
      · exact ⟨_, ht⟩

/-- Settles O6: a step is a turn, and the invariant does not read the schedule. -/
theorem safeStateNeverStops : Obligations.SafeStateNeverStops := fun s ⟨_, _, h⟩ =>
  exists_turn_of_operationInv (h.operation.of_sameOperation (sameOperation_dropEvent s)) (nextEvent s)

/-! ### What the sequencer depends on (R181) -/

/-- The elements of the state by which CORE's turn chooses its micro-operation (R174). -/
structure SeqState where
  busy : Bool
  upc : BitVec 6
  dir : Direction

/-- The sequencer's part of a state. -/
def State.seq (s : State) : SeqState := ⟨s.busy, s.upc, s.dir⟩

/-- The sequencer after a turn, from the sequencer before it alone: reset, one position on or back to 0 after `STO`,
or the start of a command that an idle core accepts. -/
def SeqState.after : Event → SeqState → SeqState
  | .reset, _ => ⟨false, 0, .enc⟩
  | .core, q => if q.busy then if q.upc = 50 then ⟨false, 0, q.dir⟩ else ⟨true, q.upc + 1, q.dir⟩ else q
  | .access w, q =>
    if q.busy then q
    else if w = commandWord .enc then ⟨true, 0, .enc⟩
    else if w = commandWord .dec then ⟨true, 0, .dec⟩
    else q

theorem SeqState.after_command (d : Direction) {q : SeqState} (h : q.busy = false) :
    q.after (.access (commandWord d)) = ⟨true, 0, d⟩ := by
  cases d <;> simp [SeqState.after, h, commandWord]

theorem SeqState.after_other {w : BusWord} {q : SeqState} (h : ¬ (q.busy = false ∧ ∃ d, w = commandWord d)) :
    q.after (.access w) = q := by
  cases hb : q.busy with
  | true => simp [SeqState.after, hb]
  | false =>
    have hw : ∀ d, w ≠ commandWord d := fun d hd => h ⟨hb, d, hd⟩
    simp [SeqState.after, hw]

theorem seq_turn {e : Event} {s t : State} (h : turn e s = .next t) : t.seq = s.seq.after e := by
  cases e with
  | reset =>
    cases h
    rfl
  | core =>
    obtain ⟨hb, rfl⟩ | ⟨hb, hu, rfl⟩ | ⟨hb, hu, rfl⟩ | ⟨hb, -, hu, i, f, -, rfl, -⟩ := core_cases h
    · simp [SeqState.after, State.seq, hb]
    · simp [SeqState.after, State.seq, hb, hu]
    · have h50 : s.upc ≠ 50#6 := fun hc => by simp [hc] at hu
      simp [SeqState.after, State.seq, hb, h50]
    · have h50 : s.upc ≠ 50#6 := fun hc => by simp [hc] at hu
      simp [SeqState.after, State.seq, hb, h50]
  | access w =>
    by_cases hacc : s.busy = false ∧ ∃ d, w = commandWord d
    · obtain ⟨hb, d, rfl⟩ := hacc
      rw [turn_command s d hb] at h
      cases h
      exact (SeqState.after_command d (q := s.seq) hb).symm
    · obtain hsame | ⟨hb, d, hw, -⟩ := access_sameOperation_or_accepts h
      · rw [SeqState.after_other (q := s.seq) hacc, State.seq, hsame.busy, hsame.upc, hsame.dir, State.seq]
      · exact absurd ⟨hb, d, hw⟩ hacc

/-- Settles O45: the sequencer after a turn is a function of the sequencer before it and of the turn. -/
theorem sequenceIsIndependentOfData : Obligations.SequenceIsIndependentOfData := by
  intro s₁ s₂ t₁ t₂ e hb hu hd h₁ h₂
  have hs : s₁.seq = s₂.seq := by rw [State.seq, hb, hu, hd, State.seq]
  have ht : t₁.seq = t₂.seq := by rw [seq_turn h₁, hs, seq_turn h₂]
  exact SeqState.mk.inj ht

/-! ### What CORE does not read (R173) -/

/-- The state with other operands. -/
def withOperands (key din : Block) (s : State) : State := { s with key := key, din := din }

/-- What stands in a micro-program is a micro-operation. -/
theorem micro_of_progInstr {d : Direction} {n : Nat} {i : Instr} (h : progInstr d n = some i) :
    ∃ w, encode i = .micro w := by
  unfold progInstr at h
  split at h
  · cases h
  · next w _ =>
    refine ⟨w, (encode_of_decodeM ?_).2⟩
    cases hd : decodeM w with
    | ok j => simpa [hd, Except.toOption] using h
    | error e => simp [hd, Except.toOption] at h

/-- A micro-operation neither reads nor writes `KEY` and `DIN`. -/
theorem exec_withOperands {i : Instr} {w : MicroWord} (hi : encode i = .micro w) (key din : Block) {s t : State}
    (h : exec i s = .next t) : exec i (withOperands key din s) = .next (withOperands key din t) := by
  cases i with
  | rd | wr | enc | dec => cases hi
  | kxr r =>
    simp only [exec, execKxr] at h ⊢
    split at h
    · next hr =>
      cases h
      exact dif_pos hr
    · cases h
  | ark r =>
    simp only [exec, execArk] at h ⊢
    split at h
    · next hr =>
      cases h
      exact dif_pos hr
    · cases h
  | _ =>
    cases h
    rfl

theorem coreTurn_withOperands (key din : Block) {s t : State} (h : turn .core s = .next t) :
    turn .core (withOperands key din s) = .next (withOperands key din t) := by
  cases hb : s.busy with
  | false =>
    obtain rfl : s = t := Host.Outcome.next.inj ((coreTurn_idle s hb).symm.trans h)
    exact coreTurn_idle _ hb
  | true =>
    obtain ⟨i, hi, hexec⟩ := coreTurn_next s t hb h
    obtain ⟨w, hw⟩ := micro_of_progInstr hi
    exact (coreTurn_busy (withOperands key din s) i hb hi).trans (exec_withOperands hw key din hexec)

/-- Settles O46: the state that differs in `KEY` and `DIN` only is the same state with other operands. -/
theorem operandsAreNotReadWhileBusy : Obligations.OperandsAreNotReadWhileBusy := by
  intro s₁ s₂ t₁ hs h
  have hs₂ : s₂ = withOperands s₂.key s₂.din s₁ := hs
  exact ⟨withOperands s₂.key s₂.din t₁, by rw [hs₂]; exact coreTurn_withOperands s₂.key s₂.din h, rfl, rfl, rfl⟩

/-! ### What HOST does during an operation -/

theorem lastWritten_append (a : Addr) (old : Byte) (es fs : List Event) :
    lastWritten a old (es ++ fs) = lastWritten a (lastWritten a old es) fs := by
  simp only [lastWritten, List.reverse_append, List.findSome?_append]
  cases fs.reverse.findSome? (writtenBy a) <;> rfl

theorem lastWritten_singleton (a : Addr) (old : Byte) (e : Event) :
    lastWritten a old [e] = (writtenBy a e).getD old := by
  simp [lastWritten]

theorem lastWritten_replicate_core (a : Addr) (old : Byte) (n : Nat) :
    lastWritten a old (List.replicate n .core) = old := by
  rw [lastWritten, List.reverse_replicate, List.findSome?_eq_none_iff.mpr, Option.getD_none]
  intro e he
  rw [List.eq_of_mem_replicate he]
  rfl

theorem firstError_append (es fs : List Event) : firstError (es ++ fs) = (firstError es).or (firstError fs) :=
  List.findSome?_append

theorem firstError_singleton (e : Event) : firstError [e] = errorWhileBusy e := by
  simp [firstError]

/-- What the turns `es`, falling while `BUSY == 1`, have done to the elements that HOST writes: `KEY` and `DIN` hold
the bytes last written, `ERR` and `ECODE` the first error. -/
structure HostEffect (es : List Event) (s t : State) : Prop where
  key : ∀ (i : Nat) (h : i < 16), t.key[i] = lastWritten (BitVec.ofNat 6 i) s.key[i] es
  din : ∀ (i : Nat) (h : i < 16), t.din[i] = lastWritten (BitVec.ofNat 6 (0x10 + i)) s.din[i] es
  err : t.err = (s.err || (firstError es).isSome)
  ecode : t.ecode = if s.err then s.ecode else ((firstError es).map ErrorCause.code).getD s.ecode

theorem hostEffect_nil (s : State) : HostEffect [] s (reschedule [] s) := by
  constructor <;> simp [lastWritten, firstError]

theorem HostEffect.append {es fs : List Event} {s t u : State} (h : HostEffect es s t) (h' : HostEffect fs t u) :
    HostEffect (es ++ fs) s u where
  key i hi := by rw [lastWritten_append, ← h.key i hi, h'.key i hi]
  din i hi := by rw [lastWritten_append, ← h.din i hi, h'.din i hi]
  err := by rw [h'.err, h.err, firstError_append, Option.isSome_or, Bool.or_assoc]
  ecode := by
    rw [h'.ecode, h.ecode, h.err, firstError_append]
    cases s.err <;> cases firstError es <;> simp

@[simp] theorem hostCommand_key (d : Direction) (s : State) : (hostCommand d s).key = s.key := by
  unfold hostCommand
  split <;> simp

@[simp] theorem hostCommand_din (d : Direction) (s : State) : (hostCommand d s).din = s.din := by
  unfold hostCommand
  split <;> simp

/-- A write stores a byte of `KEY` at its own address only. -/
theorem regWrite_key_get (a : Addr) (v : Byte) (s : State) (j : Nat) (hj : j < 16) :
    (regWrite a v s).key[j] = if a = BitVec.ofNat 6 j then v else s.key[j] := by
  split
  · next ha => simp [ha, regWrite_key s v j hj]
  · next ha =>
    obtain ⟨i, hr, h⟩ | ⟨i, -, h⟩ | ⟨c, h⟩ | ⟨-, d, h⟩ := regWrite_cases a v s
    · have hij : i.val ≠ j := fun hij => ha (by rw [← hij]; exact (region_eq_key a i).mp hr)
      simp [h, hij]
    · simp [h]
    · simp [h]
    · simp [h]

/-- A write stores a byte of `DIN` at its own address only. -/
theorem regWrite_din_get (a : Addr) (v : Byte) (s : State) (j : Nat) (hj : j < 16) :
    (regWrite a v s).din[j] = if a = BitVec.ofNat 6 (0x10 + j) then v else s.din[j] := by
  split
  · next ha => simp only [ha, regWrite_din s v j hj, Vector.getElem_set_self]
  · next ha =>
    obtain ⟨i, -, h⟩ | ⟨i, hr, h⟩ | ⟨c, h⟩ | ⟨-, d, h⟩ := regWrite_cases a v s
    · simp [h]
    · have hij : i.val ≠ j := fun hij => ha (by rw [← hij]; exact (region_eq_din a i).mp hr)
      simp [h, hij]
    · simp [h]
    · simp [h]

/-- An access writes the operand byte that `writtenBy` says, busy or idle. -/
theorem access_operands {w : BusWord} {s t : State} (h : turn (.access w) s = .next t) (i : Nat) (hi : i < 16) :
    t.key[i] = (writtenBy (BitVec.ofNat 6 i) (.access w)).getD s.key[i] ∧
    t.din[i] = (writtenBy (BitVec.ofNat 6 (0x10 + i)) (.access w)).getD s.din[i] := by
  simp only [turn, writtenBy] at h ⊢
  obtain hd | hd | ⟨a, hd⟩ | ⟨a, v, hd⟩ := decodeB_cases w
  · rw [hd] at h ⊢
    cases h
    simp
  · rw [hd] at h ⊢
    cases h
    simp
  · rw [hd] at h ⊢
    cases h
    simp
  · rw [hd] at h ⊢
    cases h
    simp only [regWrite_key_get, regWrite_din_get]
    constructor <;> split <;> rfl

/-- An access to a busy core records the error that `errorWhileBusy` says, or none (R202 to R204). -/
theorem access_busy_errors {w : BusWord} {s t : State} (h : turn (.access w) s = .next t) (hb : s.busy = true) :
    (errorWhileBusy (.access w) = none ∧ t.err = s.err ∧ t.ecode = s.ecode) ∨
    ∃ c, errorWhileBusy (.access w) = some c ∧ t = flagError c s := by
  simp only [turn, errorWhileBusy] at h ⊢
  obtain hd | hd | ⟨a, hd⟩ | ⟨a, v, hd⟩ := decodeB_cases w
  · rw [hd] at h ⊢
    cases h
    exact .inr ⟨.busy, rfl, hostCommand_busy .enc s hb⟩
  · rw [hd] at h ⊢
    cases h
    exact .inr ⟨.busy, rfl, hostCommand_busy .dec s hb⟩
  · rw [hd] at h ⊢
    cases h
    exact .inl ⟨rfl, rfl, rfl⟩
  · have hcmd := decodeB_not_command w a v hd
    rw [hd] at h ⊢
    cases h
    simp only [regWrite]
    cases hr : region a with
    | key i => exact .inl ⟨rfl, rfl, rfl⟩
    | din i => exact .inl ⟨rfl, rfl, rfl⟩
    | dout i => exact .inr ⟨.write, rfl, rfl⟩
    | status => exact .inr ⟨.write, rfl, rfl⟩
    | reserved => exact .inr ⟨.write, rfl, rfl⟩
    | ctrl =>
      simp only [Instr.isCommand, (region_eq_ctrl a).mp hr, beq_self_eq_true, Bool.true_and,
        Bool.or_eq_false_iff, beq_eq_false_iff_ne] at hcmd
      exact .inr ⟨.cmd, rfl, by simp [writeCtrl, hcmd]⟩

theorem hostEffect_access {w : BusWord} {s t : State} (h : turn (.access w) s = .next t) (hb : s.busy = true) :
    HostEffect [.access w] s t where
  key i hi := by rw [lastWritten_singleton, (access_operands h i hi).1]
  din i hi := by rw [lastWritten_singleton, (access_operands h i hi).2]
  err := by
    rw [firstError_singleton]
    obtain ⟨hnone, herr, -⟩ | ⟨c, hsome, rfl⟩ := access_busy_errors h hb
    · simp [hnone, herr]
    · simp [hsome]
  ecode := by
    rw [firstError_singleton]
    obtain ⟨hnone, -, hcode⟩ | ⟨c, hsome, rfl⟩ := access_busy_errors h hb
    · simp [hnone, hcode]
    · simp [hsome]

theorem hostEffect_core {s t : State} (h : turn .core s = .next t) : HostEffect [.core] s t := by
  obtain ⟨hkey, hdin, -, herr, hcode, -⟩ := coreNeverWritesHostRegisters s t h
  constructor <;> simp [lastWritten, firstError, writtenBy, errorWhileBusy, hkey, hdin, herr, hcode]

/-! ### An operation under any interleaving (R187) -/

/-- What the turns `es` have done to a busy core whose operation, on `P` and `K`, they do not end. -/
structure OperationProgress (P K : Block) (es : List Event) (s t : State) : Prop where
  operation : OperationInv t P K
  busy : t.busy = true
  dir : t.dir = s.dir
  dout : t.dout = s.dout
  upc : t.upc.toNat = s.upc.toNat + es.count .core
  host : HostEffect es s t

section OperationProgress

variable {P K : Block} {s t u : State} {es fs : List Event}

theorem OperationProgress.append (h : OperationProgress P K es s t) (h' : OperationProgress P K fs t u) :
    OperationProgress P K (es ++ fs) s u where
  operation := h'.operation
  busy := h'.busy
  dir := h'.dir.trans h.dir
  dout := h'.dout.trans h.dout
  upc := by rw [h'.upc, h.upc, List.count_append, Nat.add_assoc]
  host := h.host.append h'.host

/-- One turn before the `STO` of the operation. -/
theorem turn_progress {e : Event} (h : OperationInv s P K) (hb : s.busy = true) (he : e ≠ .reset)
    (hu : s.upc.toNat + [e].count .core ≤ 50) : ∃ t, turn e s = .next t ∧ OperationProgress P K [e] s t := by
  cases e with
  | reset => exact absurd rfl he
  | access w =>
    obtain ⟨t, ht, -⟩ := access_cases w s
    have hsame : SameOperation s t := (access_sameOperation_or_accepts ht).resolve_right fun hidle => by
      simp [hb] at hidle
    exact ⟨t, ht, h.of_sameOperation hsame, hsame.busy.trans hb, hsame.dir, hsame.dout,
      congrArg BitVec.toNat hsame.upc, hostEffect_access ht hb⟩
  | core =>
    have h49 : s.upc.toNat ≤ 49 := Nat.le_of_succ_le_succ hu
    obtain ⟨t, ht, hbt, hupc⟩ := coreTurn_advances hb h49
    obtain ⟨-, -, hdir, -⟩ := coreNeverWritesHostRegisters s t ht
    have hdout := onlyStoWritesDout s t .core (by simp) ht fun ⟨_, _, h50⟩ => by simp [h50] at h49
    exact ⟨t, ht, h.core ht, hbt, hdir, hdout, hupc, hostEffect_core ht⟩

/-- Any turns before the `STO` of the operation. -/
theorem drive_progress (es : List Event) {s : State} (h : OperationInv s P K) (hb : s.busy = true)
    (hr : .reset ∉ es) (hu : s.upc.toNat + es.count .core ≤ 50) :
    ∃ t, drive es s = .next t ∧ OperationProgress P K es s t := by
  induction es generalizing s with
  | nil =>
    exact ⟨_, drive_nil s, h.of_sameOperation ⟨rfl, rfl, rfl, rfl, rfl, rfl, rfl, rfl⟩, hb, rfl, rfl, rfl,
      hostEffect_nil s⟩
  | cons e es ih =>
    have hcount : (e :: es).count .core = [e].count .core + es.count .core := List.count_append (l₁ := [e])
    obtain ⟨he, hr'⟩ := List.ne_and_not_mem_of_not_mem_cons hr
    obtain ⟨t, ht, hp⟩ := turn_progress h hb he.symm (by omega)
    have hupc := hp.upc
    obtain ⟨u, hu, hp'⟩ := ih hp.operation hp.busy hr' (by omega)
    exact ⟨u, by rw [drive_cons e es s t ht, hu], hp.append hp'⟩

/-- An accepted command and any turns before the `STO` of its operation. -/
theorem drive_command_progress (s : State) (d : Direction) (es : List Event) (hb : s.busy = false)
    (hr : .reset ∉ es) (hu : es.count .core ≤ 50) :
    ∃ t, drive (.access (commandWord d) :: es) s = .next t ∧
      OperationProgress s.din s.key es (acceptCommand d s) t := by
  rw [drive_cons _ es s _ (turn_command s d hb)]
  exact drive_progress es (operationInv_acceptCommand d s) rfl hr (by simpa using hu)

end OperationProgress

/-- Settles O51: acceptance starts an operation, and turns short of its `STO` leave it in progress. -/
theorem operationRunsForFiftyOneCoreTurns : Obligations.OperationRunsForFiftyOneCoreTurns := by
  intro s d es hb hr hu
  obtain ⟨t, ht, hp⟩ := drive_command_progress s d es hb hr hu
  refine ⟨t, ht, hp.busy, (hp.operation.running hp.busy).1, ?_, ?_, ?_⟩
  · rw [hp.dir, acceptCommand_dir]
  · rw [hp.dout, acceptCommand_dout]
  · simpa using hp.upc

/-- Before `STO` every round key is written. -/
theorem OperationInv.rk_eq_expandKey {s : State} {P K : Block} (h : OperationInv s P K) (hb : s.busy = true)
    (hu : s.upc.toNat = 50) : s.rk = expandKey K :=
  Vector.ext fun r hr => by
    rw [expandKey_get K r hr]
    exact h.keys hb ⟨r, hr⟩ (show r ≤ s.upc.toNat by omega)

/-- Before `STO` the round constant is the one after the tenth. -/
theorem OperationInv.rc_eq {s : State} {P K : Block} (h : OperationInv s P K) (hb : s.busy = true)
    (hu : s.upc.toNat = 50) : s.rc = 0x6C := by
  rw [h.constant hb, hu]
  decide

/-- An operation run to its end: `STO` in the state that the turns before it leave. -/
theorem drive_operation (s : State) (d : Direction) (es : List Event) (hb : s.busy = false) (hr : .reset ∉ es)
    (hu : es.count .core = 50) :
    ∃ u, drive (.access (commandWord d) :: es ++ [.core]) s = .next (reschedule [] (storeResult u)) ∧
      OperationProgress s.din s.key es (acceptCommand d s) u ∧ u.upc.toNat = 50 := by
  obtain ⟨u, hrun, hp⟩ := drive_command_progress s d es hb hr hu.le
  have h50 : u.upc.toNat = 50 := by simpa [hu] using hp.upc
  refine ⟨u, ?_, hp, h50⟩
  rw [drive_append _ [.core] s u hrun, drive_cons .core [] u _ (coreTurn_stores hp.busy h50), drive_nil]

/-- Settles O50: `STO` stores the block function's value that the invariant gives; the rest is as the turns before
`STO` leave it. -/
theorem operationComputesTheBlockFunction : Obligations.OperationComputesTheBlockFunction := by
  intro s d es hb hr hu
  obtain ⟨u, hrun, hp, h50⟩ := drive_operation s d es hb hr hu
  have hinv := hp.operation
  have hresult := (hinv.core (coreTurn_stores hp.busy h50)).result rfl
  rw [storeResult_dir, hp.dir, acceptCommand_dir] at hresult
  refine ⟨_, hrun, hresult, rfl, rfl, ?_, rfl, ?_, ?_, ?_, fun i h => ⟨?_, ?_⟩, ?_, ?_⟩
  · rw [reschedule_dir, storeResult_dir, hp.dir, acceptCommand_dir]
  · rw [reschedule_rk, storeResult_rk, hinv.rk_eq_expandKey hp.busy h50]
  · rw [reschedule_rc, storeResult_rc, hinv.rc_eq hp.busy h50]
  · rw [reschedule_st, storeResult_st, reschedule_dout, storeResult_dout, transpose_transpose]
  · rw [reschedule_key, storeResult_key, hp.host.key i h, acceptCommand_key]
  · rw [reschedule_din, storeResult_din, hp.host.din i h, acceptCommand_din]
  · rw [reschedule_err, storeResult_err, hp.host.err, acceptCommand_err]
  · rw [reschedule_ecode, storeResult_ecode, hp.host.ecode, acceptCommand_err, acceptCommand_ecode]

/-- Settles O52: both runs end with the block function of the same operands (O50). -/
theorem operationIsStateless : Obligations.OperationIsStateless := by
  intro s₁ s₂ d es₁ es₂ hb₁ hb₂ hdin hkey hr₁ hr₂ hu₁ hu₂
  obtain ⟨t₁, hrun₁, hdout₁, -⟩ := operationComputesTheBlockFunction s₁ d es₁ hb₁ hr₁ hu₁
  obtain ⟨t₂, hrun₂, hdout₂, -⟩ := operationComputesTheBlockFunction s₂ d es₂ hb₂ hr₂ hu₂
  exact ⟨t₁, t₂, hrun₁, hrun₂, by rw [hdout₁, hdout₂, hdin, hkey]⟩

/-! ### `ENC`, then `DEC` of its result (R189) -/

/-- An operation left to CORE alone ends idle, with its result in `DOUT` and `KEY` as it was. -/
theorem drive_operation_alone (s : State) (d : Direction) (hb : s.busy = false) :
    ∃ t, drive (.access (commandWord d) :: List.replicate 51 .core) s = .next t ∧ t.busy = false ∧
      t.dout = blockFunction d s.din s.key ∧ t.key = s.key := by
  have hsplit : List.replicate 51 Event.core = List.replicate 50 .core ++ [.core] := rfl
  obtain ⟨t, hrun, hdout, hbusy, -, -, -, -, -, -, hop, -⟩ :=
    operationComputesTheBlockFunction s d (List.replicate 50 .core) hb (by simp) (by simp)
  refine ⟨t, by rw [hsplit]; exact hrun, hbusy, hdout, Vector.ext fun i hi => (hop i hi).1.trans ?_⟩
  rw [lastWritten_replicate_core]

/-- Settles O54: two operations (O50) around a load of `DIN` (O17), and decryption undoes encryption (O37). -/
theorem encThenDecRestoresTheBlock : Obligations.EncThenDecRestoresTheBlock := by
  intro s t hb hrun
  obtain ⟨t', hrun', hbusy, hdout, hkey⟩ := drive_operation_alone s .enc hb
  obtain rfl : t' = t := Host.Outcome.next.inj (hrun'.symm.trans hrun)
  have hload := (loadsFillTheRegisterInAnyOrder t' t'.dout _).2 (.refl _)
  obtain ⟨u, hdec, -, hu, -⟩ := drive_operation_alone { t' with din := t'.dout, schedule := [] } .dec hbusy
  refine ⟨u, (drive_append _ _ t' _ hload).trans hdec, ?_⟩
  calc u.dout = decryptBlock t'.dout t'.key := hu
    _ = decryptBlock (encryptBlock s.din s.key) s.key := by rw [hdout, hkey]; rfl
    _ = s.din := decryptBlock_encryptBlock s.din s.key

end Sys2Proof.Machine

/-! PROOFS for the statements about errors (60_exceptions.md): what causes each of the three errors, that nothing but
`ERR` and `ECODE` changes, and the clock cycle in which a command meets `STO`. -/

namespace Sys2Proof.Machine

/-! ### The causes of an error, in the order in which an access is judged (R208) -/

/-- From 0x20 on only `CTRL` can be written (R204). -/
theorem regWrite_readOnly {a : Addr} (h20 : 0x20 ≤ a.toNat) (hctrl : a ≠ 0x30) (v : Byte) (s : State) :
    regWrite a v s = flagError .write s := by
  cases hr : region a with
  | key i =>
    have ha := congrArg BitVec.toNat ((region_eq_key a i).mp hr)
    rw [BitVec.toNat_ofNat] at ha
    omega
  | din i =>
    have ha := congrArg BitVec.toNat ((region_eq_din a i).mp hr)
    rw [BitVec.toNat_ofNat] at ha
    omega
  | ctrl => exact absurd ((region_eq_ctrl a).mp hr) hctrl
  | dout | status | reserved => simp [regWrite, hr]

/-- A byte that is no command is an error at `CTRL`, busy or idle (R202). -/
theorem regWrite_ctrl_reserved {v : Byte} (henc : v ≠ 0x01) (hdec : v ≠ 0x02) (s : State) :
    regWrite 0x30 v s = flagError .cmd s :=
  (if_neg henc).trans (if_neg hdec)

theorem exec_commandInstr (d : Direction) (s : State) : exec (commandInstr d) s = .next (hostCommand d s) := by
  cases d <;> rfl

/-- Settles O15: each of the three accesses is `flagError` of its cause. -/
theorem errorsAreOnlyRecorded : Obligations.ErrorsAreOnlyRecorded := by
  refine fun s => ⟨fun a v h20 hctrl => ?_, fun v henc hdec => ?_, fun d hb => ?_⟩
  · rw [exec_wr, regWrite_readOnly h20 hctrl, flagError_eq, ErrorCause.code]
  · rw [exec_wr, regWrite_ctrl_reserved henc hdec, flagError_eq, ErrorCause.code]
  · rw [exec_commandInstr, hostCommand_busy d s hb, flagError_eq, ErrorCause.code]

/-! ### A command in the cycle of `STO` (R208, R250) -/

theorem decodeB_commandWord (d : Direction) : decodeB (commandWord d) = commandInstr d := by cases d <;> decide

/-- A command to a busy core is recorded as `E_BUSY` and dropped (R203). -/
theorem turn_command_busy (s : State) (d : Direction) (hb : s.busy = true) :
    turn (.access (commandWord d)) s = .next (flagError .busy s) := by
  rw [turn, decodeB_commandWord, exec_commandInstr, hostCommand_busy d s hb]

/-- A cycle of a busy core with an access on the pins and no reset: the access, then CORE's turn (R250). -/
theorem cycleEvents_access_busy {p : BusPins} {s : State} (hrst : p.rst = false) (hsel : p.sel = true)
    (hb : s.busy = true) : cycleEvents p s = [.access (pinsWord p), .core] := by
  simp [cycleEvents, hrst, hsel, hb]

/-- Settles O49: the command, judged while the core is still busy, records its error before `STO` ends the
operation. -/
theorem commandInTheStoCycleIsBusy : Obligations.CommandInTheStoCycleIsBusy := by
  intro s p d hrst hsel hw hb hu herr
  have hsto : turn .core (flagError .busy s) = .next (storeResult (flagError .busy s)) :=
    coreTurn_stores (by rw [flagError_busy, hb]) (by rw [flagError_upc, hu]; rfl)
  have hrun : drive (cycleEvents p s) s = .next (reschedule [] (storeResult (flagError .busy s))) := by
    rw [cycleEvents_access_busy hrst hsel hb, hw, drive_cons _ _ s _ (turn_command_busy s d hb),
      drive_cons _ _ _ _ hsto, drive_nil]
  refine ⟨_, hrun, ?_, ?_, rfl, rfl, ?_⟩
  · rw [reschedule_err, storeResult_err, flagError_err]
  · simp [herr, ErrorCause.code]
  · rw [reschedule_dout, storeResult_dout, flagError_st]

end Sys2Proof.Machine

/-! PROOFS for the statement about reset in the clocked view (70_reset_and_hazards.md): a cycle in which `rst` is
sampled is one reset. -/

namespace Sys2Proof.Machine

/-- A cycle in which `rst` is sampled has no turn but the reset (R231, R250). -/
theorem cycleEvents_reset {p : BusPins} (hrst : p.rst = true) (s : State) : cycleEvents p s = [.reset] :=
  if_pos hrst

/-- The turns to come are no element of the core. -/
theorem sameCore_reschedule {es : List Event} {s t : State} (h : SameCore s t) : SameCore (reschedule es s) t := h

/-- Settles O48: the cycle is the single turn of reset, which puts every element back (O1). -/
theorem resetWins : Obligations.ResetWins := by
  intro s p hrst
  obtain ⟨hreset, -⟩ := resetZeroesTheCore
  obtain ⟨t, ht, hcore, -⟩ := hreset s
  have hrun : drive (cycleEvents p s) s = .next (reschedule [] t) := by
    rw [cycleEvents_reset hrst, drive_cons _ _ s t ht, drive_nil]
  exact ⟨_, hrun, sameCore_reschedule hcore⟩

end Sys2Proof.Machine
